-- ==== Sys2Proof/Word.lean ====
section
/-! DEFINITION. The word types of the machine (spec 00_scope.md R6, R7): every register, memory word, instruction
word and pipeline-register field is a pattern of 32 bits; a register index has 3 bits. -/

namespace Sys2Proof

/-- A 32-bit pattern (`XLEN` of R6); `+` and `-` on it are modulo 2^32 (R7, R142). -/
abbrev Word := BitVec 32

/-- A register index, 0 to 7 (R10, R21). -/
abbrev RegIdx := BitVec 3

end Sys2Proof
end

