-- ==== Sys2Proof/Config.lean ====
section
/-! DEFINITION. The implementation parameters of spec 00_scope.md R6 that the machine's text refers to. The parameters
of the ENCODING (opcode numbers, field positions, `NOOPWORD`) stand in Decode.lean beside the codec that uses them.
`OOB_POLICY` has the one value `fault` (R6, decision D8) and is realised by `faultOf` of Machine/Pipeline.lean. The spec
leaves no value open, so there is no opaque constant here. -/

namespace Sys2Proof.Config

/-- `NUMREGS`: the number of general registers (R6, R21). -/
abbrev numRegs : Nat := 8

/-- `NUMMEMORY`: the capacity in words of instruction memory and, separately, of data memory (R6, R30, R31). -/
abbrev numMemory : Nat := 65536

/-- `DEPTH`: the number of stages and of pipeline registers (R6). -/
abbrev depth : Nat := 5

/-- `FWD_SOURCES`: how many pipeline registers the forwarding network inspects (R6, R110). -/
abbrev fwdSources : Nat := 3

/-- `SQUASH_SLOTS`: how many pipeline registers a taken branch turns into no-ops (R6, R117). -/
abbrev squashSlots : Nat := 3

/-- `RESET_PC`: the program counter after reset (R6, R42; decision D6 of the spec, log entry 5). -/
abbrev resetPc : Word := 0

end Sys2Proof.Config
end

