-- ==== Sys2Proof/Syntax.lean ====
section
/-! DEFINITION. The syntax of the instruction set: one constructor per row of spec/opcode_table.json (spec
30_encoding.md R79). Every bit of the 32-bit word below the opcode selector is an operand of the constructor, the bits a
row ignores included (R82), because bits `[21:16]` of EVERY word take part in the stall and forwarding comparisons; so
a constructor and its word determine each other. -/

namespace Sys2Proof

/-- The eight instructions (R79). `a`, `b`, `c` are the register fields A, B, C; `imm` is the 16-bit immediate; `unused`
holds the ignored bits `[15:3]` of ADD and NOR and `low` the ignored bits `[15:0]` of JALR, HALT and NOOP (R82). -/
inductive Instr where
  | add  (a b : RegIdx) (unused : BitVec 13) (c : RegIdx)
  | nor  (a b : RegIdx) (unused : BitVec 13) (c : RegIdx)
  | lw   (a b : RegIdx) (imm : BitVec 16)
  | sw   (a b : RegIdx) (imm : BitVec 16)
  | beq  (a b : RegIdx) (imm : BitVec 16)
  | jalr (a b : RegIdx) (low : BitVec 16)
  | halt (a b : RegIdx) (low : BitVec 16)
  | noop (a b : RegIdx) (low : BitVec 16)
deriving DecidableEq, Repr

/-- The opcode class of a word (R10, R78): one of the eight instructions or `UNSUPPORTED`. -/
inductive OpClass where
  | add | nor | lw | sw | beq | jalr | halt | noop | unsupported
deriving DecidableEq, Repr

/-- The opcode class of an instruction. -/
def Instr.opClass : Instr → OpClass
  | .add _ _ _ _ => .add
  | .nor _ _ _ _ => .nor
  | .lw _ _ _ => .lw
  | .sw _ _ _ => .sw
  | .beq _ _ _ => .beq
  | .jalr _ _ _ => .jalr
  | .halt _ _ _ => .halt
  | .noop _ _ _ => .noop

end Sys2Proof
end

