-- ==== Sys2Proof/WellFormed.lean ====
section
/-! DEFINITION. Well-formed instructions: "A well-formed program has all ignored bits zero" (spec 30_encoding.md R82). The
hardware accepts every word all the same (R82), so the machine never asks for this check; it says which terms an assembler
emits (R81, R87). -/

namespace Sys2Proof

/-- R82: every ignored bit of the instruction is zero. The fields A and B of HALT and NOOP are ignored bits `[21:16]`. -/
def Instr.wellFormed : Instr → Bool
  | .add _ _ unused _ => unused == 0
  | .nor _ _ unused _ => unused == 0
  | .lw _ _ _ => true
  | .sw _ _ _ => true
  | .beq _ _ _ => true
  | .jalr _ _ low => low == 0
  | .halt a b low => a == 0 && b == 0 && low == 0
  | .noop a b low => a == 0 && b == 0 && low == 0

end Sys2Proof
end

