-- ==== Sys2Proof/Decode.lean ====
section
/-! DEFINITION. The codec: field extraction, opcode classes, the decoder and after it the encoder (spec 30_encoding.md R70
to R81), with the encoding parameters of 00_scope.md R6. The numbers and positions are the spec's decisions D1, D2, D3, taken
there from general knowledge of LC-2K (PRESUMED, unsafe: log entries 2, 3, 4). -/

namespace Sys2Proof

/-! ### Encoding parameters (R6, R71, R78, R80) -/

/-- The lowest bit of the opcode selector `[31:22]` (R71). -/
abbrev opcodePos : Nat := 22
/-- The lowest bit of field A `[21:19]` (R71). -/
abbrev fieldAPos : Nat := 19
/-- The lowest bit of field B `[18:16]` (R71). -/
abbrev fieldBPos : Nat := 16
/-- The lowest bit of the ignored bits `[15:3]` of ADD and NOR (R71). -/
abbrev unusedPos : Nat := 3

/-- `OPC_ADD` (R6, R78). -/
abbrev opcAdd : BitVec 10 := 0
/-- `OPC_NOR` (R6, R78). -/
abbrev opcNor : BitVec 10 := 1
/-- `OPC_LW` (R6, R78). -/
abbrev opcLw : BitVec 10 := 2
/-- `OPC_SW` (R6, R78). -/
abbrev opcSw : BitVec 10 := 3
/-- `OPC_BEQ` (R6, R78). -/
abbrev opcBeq : BitVec 10 := 4
/-- `OPC_JALR` (R6, R78). -/
abbrev opcJalr : BitVec 10 := 5
/-- `OPC_HALT` (R6, R78). -/
abbrev opcHalt : BitVec 10 := 6
/-- `OPC_NOOP` (R6, R78). -/
abbrev opcNoop : BitVec 10 := 7

/-- `NOOPWORD`, the word that fills an empty pipeline slot (R37, R80; log entry 4). -/
def noopWord : Word := 0x01C00000

/-! ### Fields of a word -/

/-- `opcode(w) = w[31:22]` (R72). -/
def opcode (w : Word) : BitVec 10 := w.extractLsb' opcodePos 10
/-- `fieldA(w) = w[21:19]`, whatever the opcode (R73). -/
def fieldA (w : Word) : RegIdx := w.extractLsb' fieldAPos 3
/-- `fieldB(w) = w[18:16]`, whatever the opcode (R74). -/
def fieldB (w : Word) : RegIdx := w.extractLsb' fieldBPos 3
/-- `fieldC(w) = w[2:0]`; bits `[15:3]` take no part (R75; decision D13, log entry 11). -/
def fieldC (w : Word) : RegIdx := w.extractLsb' 0 3
/-- `imm16(w) = w[15:0]` (R76). -/
def imm16 (w : Word) : BitVec 16 := w.extractLsb' 0 16
/-- The ignored bits `[15:3]` of ADD and NOR (R71, R82). -/
def unusedBits (w : Word) : BitVec 13 := w.extractLsb' unusedPos 13

/-- `sext_16`: sixteen copies of bit 15 above the value (R8). -/
def sext16 (v : BitVec 16) : Word := v.signExtend 32
/-- `offset(w) = sext_16(imm16(w))`, not scaled and not shifted (R77). -/
def offset (w : Word) : Word := sext16 (imm16 w)

/-- The opcode class `op(w)`: decided by the opcode selector alone, total (R78; decision D20, log entry 12). -/
def op (w : Word) : OpClass :=
  let o := opcode w
  if o = opcAdd then .add
  else if o = opcNor then .nor
  else if o = opcLw then .lw
  else if o = opcSw then .sw
  else if o = opcBeq then .beq
  else if o = opcJalr then .jalr
  else if o = opcHalt then .halt
  else if o = opcNoop then .noop
  else .unsupported

/-! ### The decoder -/

/-- What the decoder answers for a word: a row of the opcode table, or the rejection by name of a word that matches no row,
with its opcode selector (R83). An unsupported word is no error of the machine: it is inert (R173). -/
inductive Decoded where
  | instr (i : Instr)
  | unsupported (selector : BitVec 10)
deriving DecidableEq, Repr

/-- The decoder, total on every word (R78: "any 32-bit input is legal"). -/
def decode (w : Word) : Decoded :=
  match op w with
  | .add => .instr (.add (fieldA w) (fieldB w) (unusedBits w) (fieldC w))
  | .nor => .instr (.nor (fieldA w) (fieldB w) (unusedBits w) (fieldC w))
  | .lw => .instr (.lw (fieldA w) (fieldB w) (imm16 w))
  | .sw => .instr (.sw (fieldA w) (fieldB w) (imm16 w))
  | .beq => .instr (.beq (fieldA w) (fieldB w) (imm16 w))
  | .jalr => .instr (.jalr (fieldA w) (fieldB w) (imm16 w))
  | .halt => .instr (.halt (fieldA w) (fieldB w) (imm16 w))
  | .noop => .instr (.noop (fieldA w) (fieldB w) (imm16 w))
  | .unsupported => .unsupported (opcode w)

/-! ### The encoder -/

/-- R79: "`w = (opcode << 22) | (A << 19) | (B << 16) | (C or imm16)`". -/
def assemble (o : BitVec 10) (a b : RegIdx) (low : BitVec 16) : Word :=
  (o.setWidth 32 <<< opcodePos) ||| (a.setWidth 32 <<< fieldAPos) ||| (b.setWidth 32 <<< fieldBPos) ||| low.setWidth 32

/-- The low half of an ADD or NOR word: the ignored bits `[15:3]` above field C (R71). -/
def lowOfC (unused : BitVec 13) (c : RegIdx) : BitVec 16 :=
  (unused.setWidth 16 <<< unusedPos) ||| c.setWidth 16

/-- The encoder: the word of an instruction (R79, R81). -/
def encode : Instr → Word
  | .add a b unused c => assemble opcAdd a b (lowOfC unused c)
  | .nor a b unused c => assemble opcNor a b (lowOfC unused c)
  | .lw a b imm => assemble opcLw a b imm
  | .sw a b imm => assemble opcSw a b imm
  | .beq a b imm => assemble opcBeq a b imm
  | .jalr a b low => assemble opcJalr a b low
  | .halt a b low => assemble opcHalt a b low
  | .noop a b low => assemble opcNoop a b low

/-! ### The host's entry -/

/-- The word whose bits are `w`, numbered as spec/opcode_table.json numbers them, every bit above `nbits` zero; none where
that is more than one 32-bit word (R70: every instruction is exactly one word). -/
def tableWord (nbits w : Nat) : Option Word :=
  if w % 2 ^ nbits < 2 ^ 32 then some (BitVec.ofNat 32 (w % 2 ^ nbits)) else none

/-- The instruction the decoder reads from a table word, none where it rejects it. -/
def decodeTableWord (nbits w : Nat) : Option Instr :=
  match tableWord nbits w with
  | some v =>
    match decode v with
    | .instr i => some i
    | .unsupported _ => none
  | none => none

end Sys2Proof
end

