-- ==== Sys2Proof/Machine/State.lean ====
section
/-! DEFINITION. The machine state as plain data (spec 10_state.md R20 to R38): the program counter, the register file, the
two memories, the cycle counter, the five pipeline registers and the status; and the state after reset (R42). -/

namespace Sys2Proof.Machine

/-- Why a step ends in the machine's fault status (60_exceptions.md R180, R184): the two faults of the spec. -/
inductive Fault where
  /-- Raised by a cycle, and by the sequential machine's fetch, whose `pc` is outside 0 to 65535 (R181). SAFE: the machine
  stops where the reference software would read outside its array and go on (decision D8, log entry 7). -/
  | fetchOutOfRange (pc : Word)
  /-- Raised by LW and SW whose effective address is outside 0 to 65535 (R182). SAFE, as above (log entry 7). -/
  | dataOutOfRange (addr : Word)
deriving DecidableEq, Repr

/-- Why a step is refused. -/
inductive Refusal where
  /-- Raised by an arm of `exec` whose instruction has no meaning yet; no arm of this model raises it. SAFE. -/
  | notModelled (mnemonic : String)
deriving DecidableEq, Repr

/-- R38: the machine status. `halted` and `faulted` are terminal. -/
inductive Status where
  | running
  | halted
  | faulted (fault : Fault)
deriving DecidableEq, Repr

/-- A memory of words: the listed words by word index, strictly rising, no listed word equal to what an unlisted index reads
as (`Memory.wf` of Ops.lean). Cells are words and never bytes: R54, decision D17 (log entry 15). -/
abbrev Memory := List (Nat × Word)

/-- `IFID`, written by IF (R32). -/
structure IfId where
  instr : Word
  pcPlus1 : Word
deriving DecidableEq, Repr

/-- `IDEX`, written by ID (R33). -/
structure IdEx where
  instr : Word
  pcPlus1 : Word
  readRegA : Word
  readRegB : Word
  offset : Word
deriving DecidableEq, Repr

/-- `EXMEM`, written by EX (R34). `eq` is the equality flag, a 32-bit field holding 0 or 1 (R10). -/
structure ExMem where
  instr : Word
  branchTarget : Word
  eq : Word
  aluResult : Word
  readRegB : Word
deriving DecidableEq, Repr

/-- `MEMWB`, written by MEM (R35). -/
structure MemWb where
  instr : Word
  writeData : Word
deriving DecidableEq, Repr

/-- `WBEND`, written by WB, read by the forwarding network and the halt check (R36). -/
structure WbEnd where
  instr : Word
  writeData : Word
deriving DecidableEq, Repr

/-- The whole machine state (R20). -/
structure State where
  /-- The index of the word IF fetches next (R24, R25). -/
  pc : Word
  /-- The eight general registers, none hard-wired (R21, R22). -/
  reg : Vector Word Config.numRegs
  /-- Instruction memory, never written after load (R30; log entry 16). -/
  instrMem : Memory
  /-- Data memory (R31). -/
  dataMem : Memory
  /-- The count of completed cycles (R28; log entry 13). -/
  cycles : Nat
  ifid : IfId
  idex : IdEx
  exmem : ExMem
  memwb : MemWb
  wbend : WbEnd
  /-- The machine status (R38). -/
  status : Status
deriving DecidableEq, Repr

/-- R42: the state after reset with nothing loaded (the empty image, R201): every register 0, every pipeline slot a no-op,
every scratch field 0, both memories reading 0 everywhere. Loading an image is `State.load` of Ops.lean. -/
def State.reset : State where
  pc := Config.resetPc
  reg := Vector.replicate Config.numRegs 0
  instrMem := []
  dataMem := []
  cycles := 0
  ifid := { instr := noopWord, pcPlus1 := 0 }
  idex := { instr := noopWord, pcPlus1 := 0, readRegA := 0, readRegB := 0, offset := 0 }
  exmem := { instr := noopWord, branchTarget := 0, eq := 0, aluResult := 0, readRegB := 0 }
  memwb := { instr := noopWord, writeData := 0 }
  wbend := { instr := noopWord, writeData := 0 }
  status := .running

end Sys2Proof.Machine
end

