-- ==== Sys2Proof/Machine/Ops.lean ====
section
/-! DEFINITION. The named operations over memories and registers (spec 00_scope.md R10; 20_memory.md R50 to R53), loading an
image (70_reset_and_hazards.md R200, R201), and what a fault does (60_exceptions.md R183). -/

namespace Sys2Proof.Machine

/-! ### Memories -/

/-- What an unlisted word reads as: unloaded memory holds 0 (R42; decision D6 of the spec, unsafe: log entry 6). -/
def Memory.unlisted : Word := 0

/-- The word at index `a`. -/
def Memory.read : Memory → Nat → Word
  | [], _ => Memory.unlisted
  | (b, v) :: rest, a => if a = b then v else Memory.read rest a

/-- The memory with `v` at index `a` and every other word as before; keeps the canonical form. -/
def Memory.write : Memory → Nat → Word → Memory
  | [], a, v => if v = Memory.unlisted then [] else [(a, v)]
  | (b, u) :: rest, a, v =>
    if a < b then
      if v = Memory.unlisted then (b, u) :: rest else (a, v) :: (b, u) :: rest
    else if a = b then
      if v = Memory.unlisted then rest else (a, v) :: rest
    else (b, u) :: Memory.write rest a v

/-- The canonical form from index `lo` on. -/
def Memory.wfFrom : Nat → Memory → Bool
  | _, [] => true
  | lo, (a, v) :: rest =>
    decide (lo ≤ a) && decide (a < Config.numMemory) && decide (v ≠ Memory.unlisted) && Memory.wfFrom (a + 1) rest

/-- The canonical form of a memory: indices strictly rising and below the capacity (R50), no listed word equal to what an
unlisted index reads as. -/
def Memory.wf (m : Memory) : Bool := Memory.wfFrom 0 m

/-- The canonical memory that holds the words of `image` from index `k` on and nothing else. -/
def Memory.ofWords : Nat → List Word → Memory
  | _, [] => []
  | k, v :: vs => if v = Memory.unlisted then Memory.ofWords (k + 1) vs else (k, v) :: Memory.ofWords (k + 1) vs

/-- R51: an address is legal when its SIGNED reading lies in 0 to 65535. -/
def inRange (a : Word) : Bool := decide (0 ≤ a.toInt) && decide (a.toInt < Config.numMemory)

/-- `Fetch(a)` for a legal `a` (R52). -/
def State.fetch (s : State) (a : Word) : Word := s.instrMem.read a.toNat

/-- `MemRead(a, 32)` for a legal `a` (R53). -/
def State.memRead (s : State) (a : Word) : Word := s.dataMem.read a.toNat

/-- `MemWrite(a, 32, v)` for a legal `a`: data memory only (R53, R62). -/
def State.memWrite (s : State) (a v : Word) : State := { s with dataMem := s.dataMem.write a.toNat v }

/-! ### Registers and the program counter -/

/-- Reading register `i` of a register file; no register is hard-wired (R22). -/
def readFile (reg : Vector Word Config.numRegs) (i : RegIdx) : Word := reg[i.toNat]'i.isLt

/-- Writing register `i` of a register file; the write to register 0 persists (R22). -/
def writeFile (reg : Vector Word Config.numRegs) (i : RegIdx) (v : Word) : Vector Word Config.numRegs :=
  reg.set i.toNat v i.isLt

/-- `x[i]` (R10). -/
def State.readReg (s : State) (i : RegIdx) : Word := readFile s.reg i

/-- `x[i] <- v` (R10). -/
def State.writeReg (s : State) (i : RegIdx) (v : Word) : State := { s with reg := writeFile s.reg i v }

/-- `pc <- t` (R10). -/
def State.setPc (s : State) (t : Word) : State := { s with pc := t }

/-- The index of the next word, modulo 2^32 (R24, R142; decision D7, log entry 14). -/
def nextIndex (pc : Word) : Word := pc + 1

/-! ### Ending a run -/

/-- R101, R170: the machine enters `Halted` and nothing else changes. -/
def State.stop (s : State) : State := { s with status := .halted }

/-- `raise F(info)` (R183), the one operation by which a fault is taken: no element changes but `status`. There is no handler,
no vector and no saved `pc`, and nothing returns from it but reset (R187, R188). -/
def State.raise (s : State) (f : Fault) : State := { s with status := .faulted f }

/-! ### Reset and load -/

/-- R201: an integer of the image stands for its pattern modulo 2^32; one outside -2^31 to 2^31-1 is no image word. -/
def imageWord (v : Int) : Option Word :=
  if -2 ^ 31 ≤ v ∧ v < 2 ^ 31 then some (BitVec.ofInt 32 v) else none

/-- The words of a list of integers, none where one of them is no image word (R201). -/
def imageWords : List Int → Option (List Word)
  | [] => some []
  | v :: vs =>
    match imageWord v, imageWords vs with
    | some w, some ws => some (w :: ws)
    | _, _ => none

/-- `init(image)` (R200, R201, R42): reset with the image loaded from address 0 into both memories. -/
def State.load (image : List Word) : State :=
  { State.reset with instrMem := Memory.ofWords 0 image, dataMem := Memory.ofWords 0 image }

/-- R201, decision D18: the core is started on an image of at most 65536 words in range, and on nothing else (none). -/
def State.init (image : List Int) : Option State :=
  match imageWords image with
  | some ws => if ws.length ≤ Config.numMemory then some (State.load ws) else none
  | none => none

end Sys2Proof.Machine
end

