-- ==== Sys2Proof/Machine/Operands.lean ====
section
/-! DEFINITION. Operand forms: the effective address of the one addressing mode (spec 42_load_store.md R150), the branch
target (43_branch.md R160), the destination register of a word (40_pipeline.md R111) and the forwarding network that
resolves the two register operands of the instruction in EX (R110). -/

namespace Sys2Proof.Machine

/-- R150: base register value plus signed displacement, modulo 2^32; a word index, not scaled. -/
def effectiveAddress (base off : Word) : Word := base + off

/-- R160: the index after the branch plus the displacement, modulo 2^32; never checked here. -/
def branchTarget (pcPlus1 off : Word) : Word := pcPlus1 + off

/-- R111: `writesReg` and `dest` in one. The register a word writes: field C for ADD and NOR, field B for LW, none for every
other class ("Store, branch, halt, and no-op instructions never forward"; JALR and unsupported words neither). -/
def destReg (w : Word) : Option RegIdx :=
  match op w with
  | .add => some (fieldC w)
  | .nor => some (fieldC w)
  | .lw => some (fieldB w)
  | .sw => none
  | .beq => none
  | .jalr => none
  | .halt => none
  | .noop => none
  | .unsupported => none

/-- R110: one producer (its word and the value it supplies) overrides the value `v` of register `r` when it writes `r`. -/
def override (r : RegIdx) (v : Word) (producer : Word × Word) : Word :=
  if destReg producer.1 = some r then producer.2 else v

/-- R110: the three producers, oldest first, the most recent last; kept as an ordered list on purpose. A load in `EXMEM`
supplies its address (R111; decision D14, log entry 10). -/
def forwardSources (s : State) : List (Word × Word) :=
  [(s.wbend.instr, s.wbend.writeData), (s.memwb.instr, s.memwb.writeData), (s.exmem.instr, s.exmem.aluResult)]

/-- R110: the value of register `r` whose decode-time value is `v`, every matching producer applied in order, so that the most
recent wins. -/
def forwarded (s : State) (r : RegIdx) (v : Word) : Word := (forwardSources s).foldl (override r) v

/-- Operand A of the instruction in EX (R110): the raw field A of its word is compared, whatever its opcode. -/
def operandA (s : State) : Word := forwarded s (fieldA s.idex.instr) s.idex.readRegA

/-- Operand B of the instruction in EX (R110). -/
def operandB (s : State) : Word := forwarded s (fieldB s.idex.instr) s.idex.readRegB

end Sys2Proof.Machine
end

