-- ==== Sys2Proof/Machine/Flags.lean ====
section
/-! DEFINITION. The one comparison result of the hardware, the equality flag `EXMEM.eq` (spec 10_state.md R26). There are no
status flags, and no instruction sets one. -/

namespace Sys2Proof.Machine

/-- R161: the difference of the two operands modulo 2^32, used only for the comparison. -/
def difference (a b : Word) : Word := a - b

/-- R112: `eq` is 1 exactly when the 32-bit difference of the operands is zero, and 0 otherwise (R10: a 32-bit field). -/
def equalFlag (a b : Word) : Word := if difference a b = 0 then 1 else 0

/-- R116: the reading of the flag that decides a branch. -/
def flagSet (eq : Word) : Bool := eq == 1

end Sys2Proof.Machine
end

