-- ==== Sys2Proof/Machine/Arithmetic.lean ====
section
/-! DEFINITION. ADD and NOR (spec 41_arithmetic.md R140 to R142): what EX computes for them, and their whole effect. -/

namespace Sys2Proof.Machine

/-- R140: the sum modulo 2^32; overflow wraps and is recorded nowhere (R142). -/
def aluAdd (a b : Word) : Word := a + b

/-- R141: NOR bit by bit over all 32 bits. -/
def aluNor (a b : Word) : Word := ~~~(a ||| b)

/-- ADD (R140): `x[C] <- x[A] + x[B]; pc <- pc + 1`. Both operands are read before the destination is written. -/
def execAdd (a b c : RegIdx) (s : State) : Host.Outcome State Fault Refusal :=
  .next ((s.writeReg c (aluAdd (s.readReg a) (s.readReg b))).setPc (nextIndex s.pc))

/-- NOR (R141): `x[C] <- ~(x[A] | x[B]); pc <- pc + 1`. -/
def execNor (a b c : RegIdx) (s : State) : Host.Outcome State Fault Refusal :=
  .next ((s.writeReg c (aluNor (s.readReg a) (s.readReg b))).setPc (nextIndex s.pc))

end Sys2Proof.Machine
end

