-- ==== Sys2Proof/Machine/LoadStore.lean ====
section
/-! DEFINITION. LW and SW (spec 42_load_store.md R150 to R153): the one addressing mode, the access, and their whole effect. An
address outside 0 to 65535 ends in the fault the spec adds for it (60_exceptions.md R182; decision D8, log entry 7). -/

namespace Sys2Proof.Machine

/-- R150: the address EX computes for LW. -/
def aluLw (a off : Word) : Word := effectiveAddress a off

/-- R150: the address EX computes for SW. -/
def aluSw (a off : Word) : Word := effectiveAddress a off

/-- LW (R151): `x[B] <- MemRead(x[A] + off, 32); pc <- pc + 1`. The base is read before the destination is written. -/
def execLw (a b : RegIdx) (imm : BitVec 16) (s : State) : Host.Outcome State Fault Refusal :=
  let addr := aluLw (s.readReg a) (sext16 imm)
  if inRange addr then .next ((s.writeReg b (s.memRead addr)).setPc (nextIndex s.pc))
  else .fault (.dataOutOfRange addr)

/-- SW (R152): `MemWrite(x[A] + off, 32, x[B]); pc <- pc + 1`. On the fault the store does not happen. -/
def execSw (a b : RegIdx) (imm : BitVec 16) (s : State) : Host.Outcome State Fault Refusal :=
  let addr := aluSw (s.readReg a) (sext16 imm)
  if inRange addr then .next ((s.memWrite addr (s.readReg b)).setPc (nextIndex s.pc))
  else .fault (.dataOutOfRange addr)

end Sys2Proof.Machine
end

