-- ==== Sys2Proof/Machine/Branch.lean ====
section
/-! DEFINITION. BEQ (spec 43_branch.md R160 to R163), the only instruction that changes the flow of control. -/

namespace Sys2Proof.Machine

/-- R161: what EX puts in `aluResult` for BEQ, the difference of the operands. -/
def aluBeq (a b : Word) : Word := difference a b

/-- BEQ (R161): `if x[A] == x[B] then pc <- pc + 1 + off else pc <- pc + 1`, with `pc` the index of the BEQ. A target outside
0 to 65535 is not checked here; it faults when it is fetched from (R160). -/
def execBeq (a b : RegIdx) (imm : BitVec 16) (s : State) : Host.Outcome State Fault Refusal :=
  .next (s.setPc
    (if flagSet (equalFlag (s.readReg a) (s.readReg b)) then branchTarget (nextIndex s.pc) (sext16 imm)
     else nextIndex s.pc))

end Sys2Proof.Machine
end

