-- ==== Sys2Proof/Machine/System.lean ====
section
/-! DEFINITION. JALR, HALT, NOOP and the unsupported words (spec 44_system.md R170 to R174). -/

namespace Sys2Proof.Machine

/-- R171: "No-op instructions force their result field to zero". -/
def aluNoop : Word := 0

/-- R174: the don't-care `aluResult` of a HALT in EX (decision D12, log entry 10). -/
def aluHalt : Word := 0

/-- R174: the don't-care `aluResult` of a JALR in EX (decision D12, log entry 10). -/
def aluJalr : Word := 0

/-- R174: the don't-care `aluResult` of an unsupported word in EX (decision D12, log entry 10). -/
def aluUnsupported : Word := 0

/-- JALR (R172), "silently inert": `pc <- pc + 1` and nothing else; no jump and no link. -/
def execJalr (s : State) : Host.Outcome State Fault Refusal := .next (s.setPc (nextIndex s.pc))

/-- HALT (R170): execution stops; no register or memory word changes. The `pc` stays at the HALT (log entry 1). -/
def execHalt (s : State) : Host.Outcome State Fault Refusal := .next s.stop

/-- NOOP (R171): `pc <- pc + 1`. -/
def execNoop (s : State) : Host.Outcome State Fault Refusal := .next (s.setPc (nextIndex s.pc))

/-- An unsupported word (R173), no row of the opcode table: `pc <- pc + 1` and nothing else (log entry 19). -/
def inertWord (s : State) : Host.Outcome State Fault Refusal := .next (s.setPc (nextIndex s.pc))

end Sys2Proof.Machine
end

