-- ==== Sys2Proof/Machine/Pipeline.lean ====
section
/-! DEFINITION. One clock cycle (spec 40_pipeline.md R100 to R121): the five stages, the hazard detector, the redirect and
squash, and the commit, each stage reading the pre-cycle state only (R103). The per-opcode arms call what the instruction
files define; the same operations make up `exec`. -/

namespace Sys2Proof.Machine

/-! ### ID: the hazard detector -/

/-- R107: the stall condition. The raw fields A and B of the incoming word are compared with field B of a resident load,
whatever the incoming word's opcode (decision D9, log entry 9). -/
def stall (s : State) : Bool :=
  op s.idex.instr == .lw &&
    (fieldB s.idex.instr == fieldA s.ifid.instr || fieldB s.idex.instr == fieldB s.ifid.instr)

/-! ### MEM: branch resolution -/

/-- R117: a taken BEQ is in MEM. -/
def takenBranch (s : State) : Bool := op s.exmem.instr == .beq && flagSet s.exmem.eq

/-! ### The stages -/

/-- IF (R104): the word at `pc` and the index after it. -/
def fetchStage (s : State) : IfId := { instr := s.fetch s.pc, pcPlus1 := nextIndex s.pc }

/-- ID (R106): the two register reads, from the pre-cycle register file, and the immediate, for every word. -/
def decodeStage (s : State) : IdEx where
  instr := s.ifid.instr
  pcPlus1 := s.ifid.pcPlus1
  readRegA := s.readReg (fieldA s.ifid.instr)
  readRegB := s.readReg (fieldB s.ifid.instr)
  offset := offset s.ifid.instr

/-- R113: the ALU, one arm per opcode class. -/
def alu (c : OpClass) (a b off : Word) : Word :=
  match c with
  | .add => aluAdd a b
  | .nor => aluNor a b
  | .lw => aluLw a off
  | .sw => aluSw a off
  | .beq => aluBeq a b
  | .jalr => aluJalr
  | .halt => aluHalt
  | .noop => aluNoop
  | .unsupported => aluUnsupported

/-- EX (R112): target, flag and `readRegB` are computed for every word (decision D12, log entry 10). -/
def executeStage (s : State) : ExMem where
  instr := s.idex.instr
  branchTarget := branchTarget s.idex.pcPlus1 s.idex.offset
  eq := equalFlag (operandA s) (operandB s)
  aluResult := alu (op s.idex.instr) (operandA s) (operandB s) s.idex.offset
  readRegB := operandB s

/-- R115: the write data of the instruction in MEM. -/
def writeDataOf (s : State) : Word :=
  match op s.exmem.instr with
  | .lw => s.memRead s.exmem.aluResult
  | .noop => 0
  | .halt => 0
  | .add => s.exmem.aluResult
  | .nor => s.exmem.aluResult
  | .sw => s.exmem.aluResult
  | .beq => s.exmem.aluResult
  | .jalr => s.exmem.aluResult
  | .unsupported => s.exmem.aluResult

/-- MEM (R114): the word moves on with its write data. -/
def memoryStage (s : State) : MemWb := { instr := s.exmem.instr, writeData := writeDataOf s }

/-- MEM (R116): SW writes data memory; no other class does. -/
def storeEffect (s : State) : Memory :=
  match op s.exmem.instr with
  | .sw => (s.memWrite s.exmem.aluResult s.exmem.readRegB).dataMem
  | .add => s.dataMem
  | .nor => s.dataMem
  | .lw => s.dataMem
  | .beq => s.dataMem
  | .jalr => s.dataMem
  | .halt => s.dataMem
  | .noop => s.dataMem
  | .unsupported => s.dataMem

/-- WB (R118): the register file after the write, at most one register. -/
def writeBack (s : State) : Vector Word Config.numRegs :=
  match destReg s.memwb.instr with
  | some r => (s.writeReg r s.memwb.writeData).reg
  | none => s.reg

/-- WB (R119): the last pipeline register. -/
def writeBackStage (s : State) : WbEnd := { instr := s.memwb.instr, writeData := s.memwb.writeData }

/-! ### Priority (R121): a taken branch, then a stall, then sequential fetch -/

/-- `n.pc` (R121, R25). -/
def nextPc (s : State) : Word :=
  if takenBranch s then s.exmem.branchTarget else if stall s then s.pc else nextIndex s.pc

/-- `n.IFID`: held whole on a stall (R108); only the word is squashed (R117; decision D11, log entry 10). -/
def nextIfid (s : State) : IfId :=
  let held := if stall s then s.ifid else fetchStage s
  if takenBranch s then { held with instr := noopWord } else held

/-- `n.IDEX`: a bubble replaces the word on a squash and on a stall (R117, R108; decision D11, log entry 10). -/
def nextIdex (s : State) : IdEx :=
  if takenBranch s || stall s then { decodeStage s with instr := noopWord } else decodeStage s

/-- `n.EXMEM`: a bubble replaces the word on a squash (R117). -/
def nextExmem (s : State) : ExMem :=
  if takenBranch s then { executeStage s with instr := noopWord } else executeStage s

/-- R120: the post-cycle state of a cycle that is performed; every element takes its new value at once. -/
def cycle (s : State) : State where
  pc := nextPc s
  reg := writeBack s
  instrMem := s.instrMem
  dataMem := storeEffect s
  cycles := s.cycles + 1
  ifid := nextIfid s
  idex := nextIdex s
  exmem := nextExmem s
  memwb := memoryStage s
  wbend := writeBackStage s
  status := s.status

/-! ### The start of a cycle -/

/-- R101: the halt check reads `WBEND`. -/
def haltCheck (s : State) : Bool := op s.wbend.instr == .halt

/-- R182: the word in MEM is a LW or a SW. -/
def accessesData (s : State) : Bool := op s.exmem.instr == .lw || op s.exmem.instr == .sw

/-- R102, R181, R182, R185: the fault of a cycle the halt check did not stop, the older instruction's first. -/
def faultOf (s : State) : Option Fault :=
  if accessesData s && !inRange s.exmem.aluResult then some (.dataOutOfRange s.exmem.aluResult)
  else if !inRange s.pc then some (.fetchOutOfRange s.pc)
  else none

/-- One rising clock edge (R100, R101, R102, R202), the spec's `step` with the status in the state: nothing changes once the
machine is not `Running` (R38). -/
def clockEdge (s : State) : State :=
  match s.status with
  | .halted => s
  | .faulted _ => s
  | .running =>
    if haltCheck s then s.stop
    else
      match faultOf s with
      | some f => s.raise f
      | none => cycle s

end Sys2Proof.Machine
end

