-- ==== Sys2Proof/Machine/InFlight.lean ====
section
/-! DEFINITION. One word alone in the pipeline, carried by the machine's own stages to the cycle in which its effect lands (spec
40_pipeline.md R122): what `State.withFetchWord` needs, since one cycle cannot both fetch a word and give it its effect. `step`
uses nothing of this file. Log entry 16. -/

namespace Sys2Proof.Machine

/-- R37: `s` with every pipeline slot a no-op, its scratch fields as after reset. -/
def State.emptied (s : State) : State :=
  { s with ifid := State.reset.ifid, idex := State.reset.idex, exmem := State.reset.exmem, memwb := State.reset.memwb,
           wbend := State.reset.wbend }

/-- `w` fetched at `pc`, alone in IF/ID (R104). -/
def State.fetched (s : State) (w : Word) : State := { s.emptied with ifid := { instr := w, pcPlus1 := nextIndex s.pc } }

/-- `w` alone in ID/EX, as ID hands it on (R106). -/
def State.decoded (s : State) (w : Word) : State := { s.emptied with idex := decodeStage (s.fetched w) }

/-- `w` alone in EX/MEM, as EX hands it on (R112). -/
def State.executed (s : State) (w : Word) : State := { s.emptied with exmem := executeStage (s.decoded w) }

/-- `w` alone in MEM/WB, as MEM hands it on (R114). -/
def State.accessed (s : State) (w : Word) : State := { s.emptied with memwb := memoryStage (s.executed w) }

/-- `w` alone in WB/END, as WB hands it on (R119). -/
def State.completed (s : State) (w : Word) : State := { s.emptied with wbend := writeBackStage (s.accessed w) }

/-- R122: `w` alone in the pipeline register from which the next clock edge gives it its effect: EX/MEM for a store, a branch
and a load that will fault (R116, R117, R182), MEM/WB for what ends with WB (R118), WB/END for HALT (R101). -/
def State.beforeEffect (s : State) (w : Word) : State :=
  match op w with
  | .add => s.accessed w
  | .nor => s.accessed w
  | .lw => if inRange (s.executed w).exmem.aluResult then s.accessed w else s.executed w
  | .sw => s.executed w
  | .beq => s.executed w
  | .jalr => s.accessed w
  | .halt => s.completed w
  | .noop => s.accessed w
  | .unsupported => s.accessed w

end Sys2Proof.Machine
end

