-- ==== Sys2Proof/Machine/Ports.lean ====
section
/-! DEFINITION. The logical ports of the core (spec 70_reset_and_hazards.md R202; decision D16, log entry 21): values on wires, each a
function of the pre-cycle state. `clk` is one `step`, `reset` is `State.load`. -/

namespace Sys2Proof.Machine

/-- R202: the ports other than `clk` and `reset`. A memory's answer to an address it does not have is none. -/
structure Ports where
  imemAddr : Word
  imemData : Option Word
  dmemAddr : Word
  dmemRdata : Option Word
  dmemWdata : Word
  dmemWe : Bool
  halted : Bool
  faulted : Bool
deriving DecidableEq, Repr

/-- R202: what the ports carry before a clock edge. -/
def State.ports (s : State) : Ports where
  imemAddr := s.pc
  imemData := if inRange s.pc then some (s.fetch s.pc) else none
  dmemAddr := s.exmem.aluResult
  dmemRdata := if inRange s.exmem.aluResult then some (s.memRead s.exmem.aluResult) else none
  dmemWdata := s.exmem.readRegB
  dmemWe := op s.exmem.instr == .sw && (faultOf s).isNone
  halted := haltCheck s
  faulted := (faultOf s).isSome && !haltCheck s

end Sys2Proof.Machine
end

