-- ==== Sys2Proof/Machine/Dispatch.lean ====
section
/-! DEFINITION. exec: the whole effect of one instruction, the "sequential effect" of spec files 41 to 44. -/

namespace Sys2Proof.Machine

def exec (i : Instr) (s : State) : Host.Outcome State Fault Refusal :=
  match i with
  | .add a b _ c => Sys2Proof.Machine.execAdd a b c s
  | .nor a b _ c => Sys2Proof.Machine.execNor a b c s
  | .lw a b imm => Sys2Proof.Machine.execLw a b imm s
  | .sw a b imm => Sys2Proof.Machine.execSw a b imm s
  | .beq a b imm => Sys2Proof.Machine.execBeq a b imm s
  | .jalr _ _ _ => Sys2Proof.Machine.execJalr s
  | .halt _ _ _ => Sys2Proof.Machine.execHalt s
  | .noop _ _ _ => Sys2Proof.Machine.execNoop s

end Sys2Proof.Machine
end

