-- ==== Sys2Proof/Machine/Sequential.lean ====
section
/-! DEFINITION. The sequential machine of spec 70_reset_and_hazards.md R217: one step executes the word at `pc` by the "sequential
effect" lines, that is by `exec`, and it stops at a HALT. It uses `pc`, `reg`, `dataMem`, `instrMem` and `status` of State and
leaves the rest alone. -/

namespace Sys2Proof.Machine

/-- The effect of one word: `exec` of the instruction it decodes to, or the inert effect of an unsupported word (R173). -/
def execWord (w : Word) (s : State) : Host.Outcome State Fault Refusal :=
  match decode w with
  | .instr i => exec i s
  | .unsupported _ => inertWord s

/-- One step of the sequential machine (R217). A fetch outside instruction memory faults (log entry 7); a machine that has
stopped stays as it is. -/
def seqStep (s : State) : Host.Outcome State Fault Refusal :=
  match s.status with
  | .halted => .next s
  | .faulted f => .fault f
  | .running => if inRange s.pc then execWord (s.fetch s.pc) s else .fault (.fetchOutOfRange s.pc)

/-- `k` steps of the sequential machine, ending at the first fault or refusal. -/
def seqRun : Nat → State → Host.Outcome State Fault Refusal
  | 0, s => .next s
  | k + 1, s =>
    match seqStep s with
    | .next s' => seqRun k s'
    | .fault f => .fault f
    | .refused r => .refused r

end Sys2Proof.Machine
end

