-- ==== Sys2Proof/Machine/Step.lean ====
section
/-! DEFINITION. step: one clock cycle (spec 40_pipeline.md R100), its fault status answered as the host's fault outcome (60_exceptions.md
R183: "it is the model's fault outcome"; log entry 8); and how the host places an instruction that the next step fetches and runs. -/

namespace Sys2Proof.Machine

/-- One clock cycle. A state whose status is `faulted` is never a next state. -/
def step (s : State) : Host.Outcome State Fault Refusal :=
  let t := clockEdge s
  match t.status with
  | .running => .next t
  | .halted => .next t
  | .faulted f => .fault f

/-- `s` with the table word `w` in instruction memory at `pc`, where IF of the next cycle fetches it (R104), and, since an effect
lands three to five cycles after the fetch (R122), alone in the pipeline as well, fetched ahead and carried by the stages to the
cycle of its effect. The very next step fetches the word at `pc` and gives it its effect (a HALT stops and an access out of
range faults before that fetch, R101, R183). Nothing else is changed: `pc`, the
registers, data memory, `cycles` and `status` are those of `s`. It is a state for one step: a program is placed by `State.load`
(log entry 16). -/
def State.withFetchWord (s : State) (nbits w : Nat) : State :=
  match tableWord nbits w with
  | some v => if inRange s.pc then { s with instrMem := s.instrMem.write s.pc.toNat v }.beforeEffect v else s
  | none => s

end Sys2Proof.Machine
end

