-- ==== Sys2Proof/Safety.lean ====
section
/-! DEFINITION. What the statements are said in: how a run ends normally, the invariant of the machine, the meaning of the scratch
fields (spec 10_state.md R40), and the runs that 70_reset_and_hazards.md R217 and R221 compare. -/

namespace Sys2Proof.Machine

/-! ### Runs of the clocked machine -/

/-- `k` clock cycles, ending at the first fault. -/
def runCycles : Nat → State → Host.Outcome State Fault Refusal
  | 0, s => .next s
  | k + 1, s =>
    match step s with
    | .next t => runCycles k t
    | .fault f => .fault f
    | .refused r => .refused r

/-- R204: a normal end. A faulted state is none (R183). -/
def State.endedNormally (s : State) : Prop := s.status = .halted

/-- The cycle that starts in `s` is performed: the machine runs, the halt check fails and no fault condition holds (R101,
R102). -/
def State.performsCycle (s : State) : Prop := s.status = .running ∧ haltCheck s = false ∧ faultOf s = none

/-- The signed reading of an address lies in 0 to 65535 (R51). -/
def legalAddress (a : Word) : Prop := 0 ≤ a.toInt ∧ a.toInt ≤ 65535

/-! ### Frames of `exec` -/

/-- The clocked part of the state: the cycle counter and the five pipeline registers, which no instruction's own effect
touches. -/
def State.sameClocked (s t : State) : Prop :=
  t.cycles = s.cycles ∧ t.ifid = s.ifid ∧ t.idex = s.idex ∧ t.exmem = s.exmem ∧ t.memwb = s.memwb ∧ t.wbend = s.wbend

/-- Every word of data memory reads as before. -/
def State.sameDataMem (s t : State) : Prop := ∀ a, t.dataMem.read a = s.dataMem.read a

/-- Every word of instruction memory reads as before. -/
def State.sameInstrMem (s t : State) : Prop := ∀ a, t.instrMem.read a = s.instrMem.read a

/-- Every register reads as before. -/
def State.sameRegs (s t : State) : Prop := ∀ r, t.readReg r = s.readReg r

/-- Every register but `c` reads as before. -/
def State.sameRegsBut (s t : State) (c : RegIdx) : Prop := ∀ r, r ≠ c → t.readReg r = s.readReg r

/-! ### The invariant -/

/-- R125: no word in EX reads the register that a load one place ahead will write, unless it is the inserted no-op. -/
def State.loadUseFree (s : State) : Prop :=
  op s.exmem.instr = .lw →
    s.idex.instr = noopWord ∨
      (fieldA s.idex.instr ≠ fieldB s.exmem.instr ∧ fieldB s.idex.instr ≠ fieldB s.exmem.instr)

/-- R106: the word in EX carries its own immediate, unless it is the inserted no-op. -/
def State.ownImmediate (s : State) : Prop := s.idex.instr = noopWord ∨ s.idex.offset = offset s.idex.instr

/-- The invariant of the machine: both memories keep their canonical form, the equality flag holds 0 or 1 (R10), and the two
facts above hold of the word in EX. -/
def State.Inv (s : State) : Prop :=
  s.instrMem.wf = true ∧ s.dataMem.wf = true ∧ (s.exmem.eq = 0 ∨ s.exmem.eq = 1) ∧ s.loadUseFree ∧ s.ownImmediate

/-! ### Which scratch fields mean something (R40) -/

/-- R126: the two states agree on the architectural projection (`pc`, `reg`, the memories, `cycles`, `status`, the five words)
and on every scratch field that R40 lists as meaningful for the opcode of the word it accompanies. -/
structure State.Agree (s t : State) : Prop where
  pc : s.pc = t.pc
  reg : s.reg = t.reg
  instrMem : s.instrMem = t.instrMem
  dataMem : s.dataMem = t.dataMem
  cycles : s.cycles = t.cycles
  status : s.status = t.status
  ifidInstr : s.ifid.instr = t.ifid.instr
  idexInstr : s.idex.instr = t.idex.instr
  exmemInstr : s.exmem.instr = t.exmem.instr
  memwbInstr : s.memwb.instr = t.memwb.instr
  wbendInstr : s.wbend.instr = t.wbend.instr
  ifidPcPlus1 : op s.ifid.instr ∈ [.beq] → s.ifid.pcPlus1 = t.ifid.pcPlus1
  idexPcPlus1 : op s.idex.instr ∈ [.beq] → s.idex.pcPlus1 = t.idex.pcPlus1
  idexReadRegA : op s.idex.instr ∈ [.add, .nor, .lw, .sw, .beq] → s.idex.readRegA = t.idex.readRegA
  idexReadRegB : op s.idex.instr ∈ [.add, .nor, .sw, .beq] → s.idex.readRegB = t.idex.readRegB
  idexOffset : op s.idex.instr ∈ [.lw, .sw, .beq] → s.idex.offset = t.idex.offset
  exmemBranchTarget : op s.exmem.instr ∈ [.beq] → s.exmem.branchTarget = t.exmem.branchTarget
  exmemEq : op s.exmem.instr ∈ [.beq] → s.exmem.eq = t.exmem.eq
  exmemAluResult : op s.exmem.instr ∈ [.add, .nor, .lw, .sw] → s.exmem.aluResult = t.exmem.aluResult
  exmemReadRegB : op s.exmem.instr ∈ [.sw] → s.exmem.readRegB = t.exmem.readRegB
  memwbWriteData : op s.memwb.instr ∈ [.add, .nor, .lw] → s.memwb.writeData = t.memwb.writeData
  wbendWriteData : op s.wbend.instr ∈ [.add, .nor, .lw] → s.wbend.writeData = t.wbend.writeData

/-! ### Comparing the clocked and the sequential machine (R212, R217, R221) -/

/-- R212: the word does nothing in the MEM stage; it decodes as ADD, NOR, NOOP, HALT, JALR or UNSUPPORTED. -/
def harmlessInMem (w : Word) : Bool :=
  match op w with
  | .add => true
  | .nor => true
  | .noop => true
  | .halt => true
  | .jalr => true
  | .unsupported => true
  | .lw => false
  | .sw => false
  | .beq => false

/-- The side conditions of R217 (how they are read is log entry 20): from `init(image)` the sequential machine comes, after `n`
steps without a fault, to a state `v` at a HALT; every index it fetches from is at most 65531; the word behind the HALT is
harmless in MEM. -/
structure SequentialHalt (image : List Word) (n : Nat) (v : State) : Prop where
  fits : image.length ≤ Config.numMemory
  arrives : seqRun n (State.load image) = .next v
  running : v.status = .running
  atHalt : op (v.fetch v.pc) = .halt
  indices : ∀ k ≤ n, ∀ u, seqRun k (State.load image) = .next u → u.pc.toNat ≤ 65531
  harmless : harmlessInMem (v.fetch (nextIndex v.pc)) = true

/-- The word at `pc` is a BEQ that the sequential machine takes (R161). -/
def State.seqTakes (s : State) : Bool :=
  op (s.fetch s.pc) == .beq && s.readReg (fieldA (s.fetch s.pc)) == s.readReg (fieldB (s.fetch s.pc))

/-- `T` of R221: how many taken BEQs the sequential machine executes in `n` steps. -/
def takenBranches : Nat → State → Nat
  | 0, _ => 0
  | n + 1, s =>
    (if s.seqTakes then 1 else 0) +
      match seqStep s with
      | .next s' => takenBranches n s'
      | .fault _ => 0
      | .refused _ => 0

/-- A stall takes effect in the cycle that starts in `s` (R221): the cycle is performed, no taken branch overrides the stall
(R121), and the resident load is on the executed path, that is, no HALT is ahead of it in the pipeline (log entry 20). -/
def State.stallTakesEffect (s : State) : Bool :=
  s.status == .running && !haltCheck s && (faultOf s).isNone && stall s && !takenBranch s &&
    op s.exmem.instr != .halt && op s.memwb.instr != .halt

/-- `S` of R221: how many of `k` cycles are stall cycles that take effect. -/
def stallCycles : Nat → State → Nat
  | 0, _ => 0
  | k + 1, s =>
    (if s.stallTakesEffect then 1 else 0) +
      match step s with
      | .next s' => stallCycles k s'
      | .fault _ => 0
      | .refused _ => 0

/-- The pipeline is empty: every slot holds the no-op word (R37). -/
def State.pipelineEmpty (s : State) : Prop :=
  s.ifid.instr = noopWord ∧ s.idex.instr = noopWord ∧ s.exmem.instr = noopWord ∧ s.memwb.instr = noopWord ∧
    s.wbend.instr = noopWord

end Sys2Proof.Machine
end

