-- ==== Sys2Proof/Certificates/Slice0/Obligations.lean ====
section
/-! DEFINITION. The statements for the provers. A docstring names the rule of the spec a statement formalises. Where a clause
rests on a decision of the spec (92_eei_decisions.md D<n>) and not on its source, the docstring says so and names the log
entry under notes/assumptions. -/

open Sys2Proof Sys2Proof.Machine

/-! ### Encoding -/

/-- 30_encoding.md R71 to R79: no bit of an encoding is dropped, ignored bits included. The numbers and positions are the
spec's decisions D1, D2 (log entries 2, 3). -/
def Obligations.DecodeOfEncodeIsIdentity : Prop :=
  ∀ i : Instr, decode (encode i) = .instr i

/-- The other direction: a word that decodes has one encoding, itself (decisions D1, D2; log entries 2, 3). -/
def Obligations.EncodeOfDecodeIsTheWord : Prop :=
  ∀ (w : Word) (i : Instr), decode w = .instr i → encode i = w

/-- R83: the decoder rejects, by name, exactly the words of 2^25 or more read as unsigned, "any of bits `[31:25]` set"
(decisions D1, D2; log entries 2, 3). -/
def Obligations.DecoderRejectsExactlyUnsupportedWords : Prop :=
  ∀ (w : Word) (sel : BitVec 10), decode w = .unsupported sel ↔ sel = opcode w ∧ 33554432 ≤ w.toNat

/-- R79: the eight rows of match and mask (decisions D1, D2; log entries 2, 3). -/
def Obligations.OpcodeTableMasksAndMatches : Prop :=
  ∀ w : Word,
    (op w = .add ↔ w &&& 0xFFC00000 = 0x00000000) ∧ (op w = .nor ↔ w &&& 0xFFC00000 = 0x00400000) ∧
    (op w = .lw ↔ w &&& 0xFFC00000 = 0x00800000) ∧ (op w = .sw ↔ w &&& 0xFFC00000 = 0x00C00000) ∧
    (op w = .beq ↔ w &&& 0xFFC00000 = 0x01000000) ∧ (op w = .jalr ↔ w &&& 0xFFC00000 = 0x01400000) ∧
    (op w = .halt ↔ w &&& 0xFFC00000 = 0x01800000) ∧ (op w = .noop ↔ w &&& 0xFFC00000 = 0x01C00000)

/-- Ten words of 95_test_vectors.md section 2.1 decode as that file prints them. Every clause is a numeric word, so it rests on the
numbers and positions the spec takes from general knowledge (decisions D1, D2, PRESUMED: log entries 2, 3); that 0x000A0FFB
decodes to destination register 3 rests on the choice to ignore bits `[15:3]` (decision D13, DESIGN CHOICE: log entry 11). -/
def Obligations.SpecWordsDecode : Prop :=
  decode 0x000A0003 = .instr (.add 1 2 0 3) ∧ decode 0x000A0FFB = .instr (.add 1 2 511 3) ∧
  decode 0x004A0003 = .instr (.nor 1 2 0 3) ∧ decode 0x0080FFFF = .instr (.lw 0 0 0xFFFF) ∧
  decode 0x00FF8000 = .instr (.sw 7 7 0x8000) ∧ decode 0x01010001 = .instr (.beq 0 1 1) ∧
  decode 0x01670000 = .instr (.jalr 4 7 0) ∧ decode 0x01800000 = .instr (.halt 0 0 0) ∧
  decode 0x01C00000 = .instr (.noop 0 0 0) ∧ decode 0xFFFFFFFF = .unsupported 1023

/-- R8: "numerically it is `v` if `v < 32768` and `v - 65536` otherwise". -/
def Obligations.ImmediateIsSignExtended : Prop :=
  ∀ v : BitVec 16, (sext16 v).toInt = if v.toNat < 32768 then (v.toNat : Int) else (v.toNat : Int) - 65536

/-! ### The effect of each instruction -/

/-- R140, sequential effect: ADD completes in every state, writes the sum modulo 2^32 to register C (register 0 included) and
changes nothing else but `pc`. The ignored bits (`unused`) change nothing (decision D13, log entry 11). -/
def Obligations.AddWritesTheSum : Prop :=
  ∀ (a b : RegIdx) (unused : BitVec 13) (c : RegIdx) (s : State),
    ∃ t, exec (.add a b unused c) s = .next t ∧
      t.readReg c = s.readReg a + s.readReg b ∧ t.pc = s.pc + 1 ∧
      s.sameRegsBut t c ∧ s.sameDataMem t ∧ s.sameInstrMem t ∧ s.sameClocked t ∧ t.status = s.status

/-- R141, sequential effect: NOR completes in every state. The ignored bits change nothing (decision D13, log entry 11). -/
def Obligations.NorWritesTheNor : Prop :=
  ∀ (a b : RegIdx) (unused : BitVec 13) (c : RegIdx) (s : State),
    ∃ t, exec (.nor a b unused c) s = .next t ∧
      t.readReg c = ~~~(s.readReg a ||| s.readReg b) ∧ t.pc = s.pc + 1 ∧
      s.sameRegsBut t c ∧ s.sameDataMem t ∧ s.sameInstrMem t ∧ s.sameClocked t ∧ t.status = s.status

/-- R150, R151, sequential effect: LW completes for every legal address and writes the word of data memory there to register
B. -/
def Obligations.LwLoadsTheWord : Prop :=
  ∀ (a b : RegIdx) (imm : BitVec 16) (s : State), legalAddress (s.readReg a + sext16 imm) →
    ∃ t, exec (.lw a b imm) s = .next t ∧
      t.readReg b = s.dataMem.read (s.readReg a + sext16 imm).toNat ∧ t.pc = s.pc + 1 ∧
      s.sameRegsBut t b ∧ s.sameDataMem t ∧ s.sameInstrMem t ∧ s.sameClocked t ∧ t.status = s.status

/-- R150, R152, sequential effect: SW completes for every legal address, stores register B at the effective address and leaves
every other word, and every register, as it was; the memory keeps its canonical form. -/
def Obligations.SwStoresTheWord : Prop :=
  ∀ (a b : RegIdx) (imm : BitVec 16) (s : State), s.dataMem.wf = true →
    legalAddress (effectiveAddress (s.readReg a) (sext16 imm)) →
    ∃ t, exec (.sw a b imm) s = .next t ∧ t.pc = s.pc + 1 ∧
      (∀ x, t.dataMem.read x =
        if x = (effectiveAddress (s.readReg a) (sext16 imm)).toNat then s.readReg b else s.dataMem.read x) ∧
      t.dataMem.wf = true ∧ s.sameRegs t ∧ s.sameInstrMem t ∧ s.sameClocked t ∧ t.status = s.status

/-- R182: LW and SW at an address that is not legal end in `DataOutOfRange` with that address (decision D8, log entry 7). -/
def Obligations.LwAndSwFaultOutOfRange : Prop :=
  ∀ (a b : RegIdx) (imm : BitVec 16) (s : State), ¬ legalAddress (s.readReg a + sext16 imm) →
    exec (.lw a b imm) s = .fault (.dataOutOfRange (s.readReg a + sext16 imm)) ∧
    exec (.sw a b imm) s = .fault (.dataOutOfRange (s.readReg a + sext16 imm))

/-- R160, R161, sequential effect: BEQ completes in every state, whatever the target, and changes `pc` alone. -/
def Obligations.BeqBranchesOnEquality : Prop :=
  ∀ (a b : RegIdx) (imm : BitVec 16) (s : State),
    ∃ t, exec (.beq a b imm) s = .next t ∧
      t.pc = (if s.readReg a = s.readReg b then s.pc + 1 + sext16 imm else s.pc + 1) ∧
      s.sameRegs t ∧ s.sameDataMem t ∧ s.sameInstrMem t ∧ s.sameClocked t ∧ t.status = s.status

/-- R171, R172, sequential effect: NOOP and JALR complete in every state and only advance `pc`, whatever their ignored bits. -/
def Obligations.JalrAndNoopOnlyAdvance : Prop :=
  ∀ (i : Instr) (s : State), i.opClass = .jalr ∨ i.opClass = .noop →
    ∃ t, exec i s = .next t ∧ t.pc = s.pc + 1 ∧
      s.sameRegs t ∧ s.sameDataMem t ∧ s.sameInstrMem t ∧ s.sameClocked t ∧ t.status = s.status

/-- R170, sequential effect: "execution stops; no register or memory word changes". That `pc` stays at the HALT is the model's
reading of the sequential machine (log entry 1). -/
def Obligations.HaltStopsAndChangesNothingElse : Prop :=
  ∀ (a b : RegIdx) (low : BitVec 16) (s : State),
    ∃ t, exec (.halt a b low) s = .next t ∧ t.status = .halted ∧ t.pc = s.pc ∧
      s.sameRegs t ∧ s.sameDataMem t ∧ s.sameInstrMem t ∧ s.sameClocked t

/-- R173, R83: a word of 2^25 or more, no instruction of the table, is inert (numbering: decisions D1, D2). -/
def Obligations.UnsupportedWordsAreInert : Prop :=
  ∀ (w : Word) (s : State), 33554432 ≤ w.toNat →
    ∃ t, execWord w s = .next t ∧ t.pc = s.pc + 1 ∧
      s.sameRegs t ∧ s.sameDataMem t ∧ s.sameInstrMem t ∧ s.sameClocked t ∧ t.status = s.status

/-- R22: no register is hard-wired, each keeps what is written to it; an instruction whose destination index is 0 changes `reg[0]`,
and later reads of `reg[0]` return the written value: for the three instructions that write a register, and for the WB stage
of the clocked machine. -/
def Obligations.RegisterZeroIsOrdinary : Prop :=
  (∀ (s : State) (r : RegIdx) (v : Word), (s.writeReg r v).readReg r = v) ∧
  (∀ (a b : RegIdx) (unused : BitVec 13) (s : State),
    ∃ t, exec (.add a b unused 0) s = .next t ∧ t.readReg 0 = s.readReg a + s.readReg b) ∧
  (∀ (a b : RegIdx) (unused : BitVec 13) (s : State),
    ∃ t, exec (.nor a b unused 0) s = .next t ∧ t.readReg 0 = ~~~(s.readReg a ||| s.readReg b)) ∧
  (∀ (a : RegIdx) (imm : BitVec 16) (s : State), legalAddress (s.readReg a + sext16 imm) →
    ∃ t, exec (.lw a 0 imm) s = .next t ∧ t.readReg 0 = s.dataMem.read (s.readReg a + sext16 imm).toNat) ∧
  (∀ s t : State, s.performsCycle → step s = .next t → destReg s.memwb.instr = some 0 →
    t.readReg 0 = s.memwb.writeData)

/-! ### The start of a cycle, the end of a run -/

/-- R101: the halt check. A HALT in WB/END stops the machine before the cycle: no other element changes and no further cycle
is ever performed. That the halted state then answers itself as its next state, for every number of steps, is the model's
choice of outcome (DESIGN CHOICE: log entry 8). With no HALT there, a next state of a running machine is running. -/
def Obligations.HaltCheckStopsTheMachine : Prop :=
  (∀ s : State, s.status = .running → op s.wbend.instr = .halt →
    step s = .next { s with status := .halted } ∧
      ∀ k, runCycles k { s with status := .halted } = .next { s with status := .halted }) ∧
  (∀ s t : State, s.status = .running → op s.wbend.instr ≠ .halt → step s = .next t → t.status = .running)

/-- R38: "Once not `Running` it never changes again until reset". A faulted machine answers its fault (R183; the model's choice
of outcome is log entry 8). -/
def Obligations.TerminalStatusIsFinal : Prop :=
  (∀ (s : State) (k : Nat), s.status = .halted → runCycles k s = .next s) ∧
  (∀ (s : State) (f : Fault) (k : Nat), s.status = .faulted f → clockEdge s = s ∧ runCycles (k + 1) s = .fault f)

/-- R181, R182, R185: when a running machine's step faults, and with which fault; the halt check comes first, then the data
fault, then the fetch fault (decision D8, log entry 7). -/
def Obligations.StepFaultsExactlyOutOfRange : Prop :=
  ∀ (s : State) (f : Fault), s.status = .running →
    (step s = .fault f ↔ op s.wbend.instr ≠ .halt ∧
      (((op s.exmem.instr = .lw ∨ op s.exmem.instr = .sw) ∧ ¬ legalAddress s.exmem.aluResult ∧
          f = .dataOutOfRange s.exmem.aluResult) ∨
        (¬ ((op s.exmem.instr = .lw ∨ op s.exmem.instr = .sw) ∧ ¬ legalAddress s.exmem.aluResult) ∧
          ¬ legalAddress s.pc ∧ f = .fetchOutOfRange s.pc)))

/-- R183: a fault abandons the cycle as a whole: no element of the state changes but `status`, and the machine stays there
(decision D8, log entry 7). -/
def Obligations.FaultAbandonsTheCycle : Prop :=
  ∀ (s : State) (f : Fault), s.status = .running → step s = .fault f →
    clockEdge s = { s with status := .faulted f } ∧ step (clockEdge s) = .fault f

/-- R183: "A model must not treat `Faulted` as a final state that satisfies a postcondition": no step answers one. -/
def Obligations.NextStateIsNeverFaulted : Prop :=
  ∀ (s t : State) (f : Fault), step s = .next t → t.status ≠ .faulted f

/-- R100, R102: the cycle is performed whenever the machine runs, the halt check fails and both addresses in use are legal; it
is a function of the state and always completes (decision D8 for the two conditions, log entry 7). -/
def Obligations.CycleCompletesWhenInRange : Prop :=
  ∀ s : State, s.status = .running → op s.wbend.instr ≠ .halt →
    (op s.exmem.instr = .lw ∨ op s.exmem.instr = .sw → legalAddress s.exmem.aluResult) → legalAddress s.pc →
    ∃ t, step s = .next t ∧ t.status = .running ∧ t.cycles = s.cycles + 1 ∧ t.instrMem = s.instrMem

/-- R28: `cycles` is 0 after reset, counts every performed cycle by exactly 1, stands still in the terminal status, and no other
element of the next state depends on it; no instruction writes it or reads it. -/
def Obligations.CyclesCountCompletedCycles : Prop :=
  State.reset.cycles = 0 ∧
  (∀ s t : State, s.performsCycle → step s = .next t → t.cycles = s.cycles + 1) ∧
  (∀ s t : State, ¬ s.performsCycle → step s = .next t → t.cycles = s.cycles) ∧
  (∀ (s t : State) (n : Nat), step s = .next t →
    step { s with cycles := n } = .next { t with cycles := n + (t.cycles - s.cycles) }) ∧
  (∀ (i : Instr) (s t : State) (n : Nat), exec i s = .next t →
    t.cycles = s.cycles ∧ exec i { s with cycles := n } = .next { t with cycles := n })

/-- R30: instruction memory is never mutated after load, neither by a cycle nor by an instruction; it is read only by IF, one
word a cycle, at `pc`: a cycle of two states that differ in other words of it differs in nothing else. -/
def Obligations.InstructionMemoryIsNeverWritten : Prop :=
  (∀ s t : State, step s = .next t → t.instrMem = s.instrMem) ∧
  (∀ (i : Instr) (s t : State), exec i s = .next t → t.instrMem = s.instrMem) ∧
  (∀ (s t : State) (m : Memory), m.read s.pc.toNat = s.instrMem.read s.pc.toNat → step s = .next t →
    step { s with instrMem := m } = .next { t with instrMem := m }) ∧
  (∀ (i : Instr) (s t : State) (m : Memory), exec i s = .next t →
    exec i { s with instrMem := m } = .next { t with instrMem := m })

/-! ### The five stages -/

/-- R104, R106, R103: with no stall and no taken branch, IF takes the word at `pc` and ID the register values BEFORE the
write of the same cycle. -/
def Obligations.FetchAndDecodeMoveOn : Prop :=
  ∀ s : State, s.performsCycle → stall s = false → takenBranch s = false →
    ∃ t, step s = .next t ∧ t.pc = s.pc + 1 ∧
      t.ifid = { instr := s.instrMem.read s.pc.toNat, pcPlus1 := s.pc + 1 } ∧
      t.idex = { instr := s.ifid.instr, pcPlus1 := s.ifid.pcPlus1, readRegA := s.readReg (fieldA s.ifid.instr),
                 readRegB := s.readReg (fieldB s.ifid.instr), offset := sext16 (imm16 s.ifid.instr) } ∧
      t.exmem.instr = s.idex.instr

/-- R107, R108: the stall. Behind a load in ID/EX whose field B equals field A or B of the word in IF/ID, `pc` and IF/ID are
held and a bubble enters ID/EX, while the load moves on (decision D9 for the raw comparison, log entry 9). -/
def Obligations.StallHoldsFetchAndInsertsABubble : Prop :=
  ∀ s : State, s.performsCycle → takenBranch s = false → op s.idex.instr = .lw →
    (fieldB s.idex.instr = fieldA s.ifid.instr ∨ fieldB s.idex.instr = fieldB s.ifid.instr) →
    ∃ t, step s = .next t ∧ t.pc = s.pc ∧ t.ifid = s.ifid ∧ t.idex.instr = noopWord ∧ t.exmem.instr = s.idex.instr

/-- R109: "Two stalls in two consecutive cycles are therefore impossible" (the spec's own derivation), and no bubble ever
causes a stall. -/
def Obligations.NoTwoStallsInARow : Prop :=
  ∀ s t : State, s.performsCycle → stall s = true → step s = .next t → stall t = false

/-- R110: the forwarding network. The value of either operand is that of the most recent of EX/MEM, MEM/WB, WB/END whose
word writes the register, else the value read at decode time. -/
def Obligations.ForwardingTakesTheNearestProducer : Prop :=
  ∀ s : State,
    operandA s =
      (if destReg s.exmem.instr = some (fieldA s.idex.instr) then s.exmem.aluResult
       else if destReg s.memwb.instr = some (fieldA s.idex.instr) then s.memwb.writeData
       else if destReg s.wbend.instr = some (fieldA s.idex.instr) then s.wbend.writeData
       else s.idex.readRegA) ∧
    operandB s =
      (if destReg s.exmem.instr = some (fieldB s.idex.instr) then s.exmem.aluResult
       else if destReg s.memwb.instr = some (fieldB s.idex.instr) then s.memwb.writeData
       else if destReg s.wbend.instr = some (fieldB s.idex.instr) then s.wbend.writeData
       else s.idex.readRegB)

/-- R112, R113, R140, R141, R150, R161, R171: what EX latches when the word is not squashed. The fields a class does not use
rest on decision D12 (log entry 10). -/
def Obligations.ExecuteLatchesTheResult : Prop :=
  ∀ s : State, s.performsCycle → takenBranch s = false →
    ∃ t, step s = .next t ∧ t.exmem.instr = s.idex.instr ∧ t.exmem.readRegB = operandB s ∧
      t.exmem.branchTarget = s.idex.pcPlus1 + s.idex.offset ∧
      t.exmem.eq = (if operandA s = operandB s then 1 else 0) ∧
      (op s.idex.instr = .add → t.exmem.aluResult = operandA s + operandB s) ∧
      (op s.idex.instr = .nor → t.exmem.aluResult = ~~~(operandA s ||| operandB s)) ∧
      (op s.idex.instr = .lw ∨ op s.idex.instr = .sw → t.exmem.aluResult = operandA s + s.idex.offset) ∧
      (op s.idex.instr = .beq → t.exmem.aluResult = operandA s - operandB s) ∧
      (op s.idex.instr = .noop ∨ op s.idex.instr = .halt ∨ op s.idex.instr = .jalr ∨ op s.idex.instr = .unsupported →
        t.exmem.aluResult = 0)

/-- R114 to R116, R53, R151, R152: MEM. A load's word comes from the memory before the cycle; a store writes exactly one word;
no other class changes data memory (the write data of SW, BEQ, JALR and unsupported words rests on decision D12, log
entry 10). -/
def Obligations.MemoryStageLoadsAndStores : Prop :=
  ∀ s : State, s.performsCycle → s.dataMem.wf = true →
    ∃ t, step s = .next t ∧ t.memwb.instr = s.exmem.instr ∧
      (op s.exmem.instr = .lw → t.memwb.writeData = s.dataMem.read s.exmem.aluResult.toNat) ∧
      (op s.exmem.instr = .noop ∨ op s.exmem.instr = .halt → t.memwb.writeData = 0) ∧
      (op s.exmem.instr ≠ .lw → op s.exmem.instr ≠ .noop → op s.exmem.instr ≠ .halt →
        t.memwb.writeData = s.exmem.aluResult) ∧
      (op s.exmem.instr = .sw → ∀ a, t.dataMem.read a =
        if a = s.exmem.aluResult.toNat then s.exmem.readRegB else s.dataMem.read a) ∧
      (op s.exmem.instr ≠ .sw → t.dataMem = s.dataMem)

/-- R118, R119: WB. ADD and NOR write field C, LW writes field B, every other word writes no register; the word and its value
move on to WB/END. -/
def Obligations.WriteBackWritesAtMostOneRegister : Prop :=
  ∀ s : State, s.performsCycle →
    ∃ t, step s = .next t ∧ t.wbend = { instr := s.memwb.instr, writeData := s.memwb.writeData } ∧
      (op s.memwb.instr = .add ∨ op s.memwb.instr = .nor →
        t.readReg (fieldC s.memwb.instr) = s.memwb.writeData ∧ s.sameRegsBut t (fieldC s.memwb.instr)) ∧
      (op s.memwb.instr = .lw →
        t.readReg (fieldB s.memwb.instr) = s.memwb.writeData ∧ s.sameRegsBut t (fieldB s.memwb.instr)) ∧
      (op s.memwb.instr ≠ .add → op s.memwb.instr ≠ .nor → op s.memwb.instr ≠ .lw → t.reg = s.reg)

/-- R117, R121: a taken BEQ in MEM redirects `pc` and turns IF/ID, ID/EX and EX/MEM into no-ops, a stall of the same cycle
being void (decision D10 of the spec, "forced" by the source's section 8; log entry 17); older words move on. -/
def Obligations.TakenBranchRedirectsAndSquashes : Prop :=
  ∀ s : State, s.performsCycle → op s.exmem.instr = .beq → s.exmem.eq = 1 →
    ∃ t, step s = .next t ∧ t.pc = s.exmem.branchTarget ∧ t.ifid.instr = noopWord ∧ t.idex.instr = noopWord ∧
      t.exmem.instr = noopWord ∧ t.memwb.instr = s.exmem.instr ∧ t.wbend.instr = s.memwb.instr ∧
      t.dataMem = s.dataMem

/-- R162: "Branch not taken: fall-through instructions execute normally with no squash and no pipeline-register disturbance":
everything the stages before MEM, the memory and the registers get is what a NOOP in the branch's place would leave. -/
def Obligations.NotTakenBranchDisturbsNothing : Prop :=
  ∀ s : State, s.performsCycle → op s.exmem.instr = .beq → s.exmem.eq ≠ 1 →
    ∃ t u, step s = .next t ∧ step { s with exmem := { s.exmem with instr := noopWord } } = .next u ∧
      t.pc = u.pc ∧ t.ifid = u.ifid ∧ t.idex = u.idex ∧ t.exmem = u.exmem ∧ t.reg = u.reg ∧ t.dataMem = u.dataMem ∧
      t.wbend = u.wbend ∧ t.cycles = u.cycles ∧ t.memwb.instr = s.exmem.instr

/-- R124: a squashed instruction has no architectural effect. When a taken BEQ is in MEM, whatever words and fields IF/ID and
ID/EX hold, the next states agree on everything that means something (the spec's own derivation; scratch fields D11, log
entry 10). -/
def Obligations.SquashedWordsHaveNoEffect : Prop :=
  ∀ (s : State) (x : IfId) (y : IdEx), s.performsCycle → op s.exmem.instr = .beq → s.exmem.eq = 1 →
    ∃ t u, step s = .next t ∧ step { s with ifid := x, idex := y } = .next u ∧ t.Agree u

/-- R25, R163: the flow of `pc`. In a performed cycle `pc` takes one of three values, and only a BEQ with its flag set makes it
other than the held or the next index. -/
def Obligations.OnlyTakenBranchesRedirect : Prop :=
  ∀ s t : State, s.performsCycle → step s = .next t →
    (op s.exmem.instr = .beq ∧ s.exmem.eq = 1 ∧ t.pc = s.exmem.branchTarget) ∨
    (¬ (op s.exmem.instr = .beq ∧ s.exmem.eq = 1) ∧ stall s = true ∧ t.pc = s.pc) ∨
    (¬ (op s.exmem.instr = .beq ∧ s.exmem.eq = 1) ∧ stall s = false ∧ t.pc = s.pc + 1)

/-- R153: only LW reads data memory and only SW writes it, among the instructions and in the clocked machine. -/
def Obligations.OnlyLwReadsAndOnlySwWritesDataMemory : Prop :=
  (∀ s t : State, step s = .next t → op s.exmem.instr ≠ .sw → t.dataMem = s.dataMem) ∧
  (∀ (s t : State) (m : Memory), step s = .next t → op s.exmem.instr ≠ .lw → op s.exmem.instr ≠ .sw →
    step { s with dataMem := m } = .next { t with dataMem := m }) ∧
  (∀ (i : Instr) (s t : State), exec i s = .next t → i.opClass ≠ .sw → t.dataMem = s.dataMem) ∧
  (∀ (i : Instr) (s t : State) (m : Memory), exec i s = .next t → i.opClass ≠ .lw → i.opClass ≠ .sw →
    exec i { s with dataMem := m } = .next { t with dataMem := m })

/-! ### The invariant -/

/-- Every step keeps the invariant: both memories keep their canonical form, the equality flag holds 0 or 1 (R10), no word in EX
depends on a load one place ahead (R125), and the word in EX carries its own immediate (R106). -/
def Obligations.StepKeepsTheInvariant : Prop :=
  ∀ s t : State, s.Inv → step s = .next t → t.Inv

/-- The invariant holds after reset and after the load of any image that fits. -/
def Obligations.ResetAndLoadMeetTheInvariant : Prop :=
  State.reset.Inv ∧ ∀ image : List Word, image.length ≤ 65536 → (State.load image).Inv

/-- R125: in a state that meets the invariant, the address a load in EX/MEM would forward (decision D14, log entry 10) reaches
neither operand of the word in EX, unless that word is the inserted no-op. -/
def Obligations.LoadAddressIsNeverForwarded : Prop :=
  ∀ (s : State) (x : Word), s.Inv → op s.exmem.instr = .lw → s.idex.instr ≠ noopWord →
    operandA { s with exmem := { s.exmem with aluResult := x } } = operandA s ∧
    operandB { s with exmem := { s.exmem with aluResult := x } } = operandB s

/-- R126: non-interference of the don't-care fields. Two running states that agree on the architectural projection and on the
scratch fields R40 calls meaningful step to states that agree so, or fault alike. It is why decisions D6, D11, D12, D14
(log entries 5, 10) influence nothing architectural. -/
def Obligations.NonInterferenceOfDontCares : Prop :=
  ∀ s t : State, s.status = .running → s.Agree t →
    (∀ s', step s = .next s' → ∃ t', step t = .next t' ∧ s'.Agree t') ∧
    (∀ f, step s = .fault f → step t = .fault f)

/-! ### Instructions through the pipeline -/

/-- R217: a step of the sequential machine runs the decoded instruction: it is `exec` of the instruction the word at `pc` decodes
to; the meanings do what a fetched instruction does. -/
def Obligations.SequentialStepRunsTheDecodedInstruction : Prop :=
  ∀ (s : State) (i : Instr), s.status = .running → legalAddress s.pc →
    decode (s.instrMem.read s.pc.toNat) = .instr i → seqStep s = exec i s

/-- R122: steps run the decoded instruction. The word at `pc` is fetched into an empty pipeline by the first cycle, and after five
cycles it is in WB/END with exactly the effect `exec` gives it on the registers and on data memory. What `step` adds around
`exec` here is the time, five cycles, and the words fetched behind it, of which the first must be harmless in MEM (R212). A
BEQ's effect, on `pc`, is `LoneBranchRedirects`. -/
def Obligations.StepsRunTheDecodedInstruction : Prop :=
  ∀ (i : Instr) (s u : State), s.pipelineEmpty → s.status = .running → s.pc.toNat ≤ 65531 →
    decode (s.instrMem.read s.pc.toNat) = .instr i → i.opClass ≠ .beq →
    harmlessInMem (s.instrMem.read (s.pc + 1).toNat) = true → exec i s = .next u →
    ∃ t, runCycles 5 s = .next t ∧ t.status = .running ∧ t.reg = u.reg ∧ t.dataMem = u.dataMem ∧
      t.wbend.instr = encode i ∧ t.cycles = s.cycles + 5

/-- R182, R122: a load or store that `exec` faults faults the clocked machine alike, at the start of the cycle in which it would
be in MEM, the fourth (decision D8, log entry 7). -/
def Obligations.LoneAccessFaultsInMem : Prop :=
  ∀ (i : Instr) (s : State) (f : Fault), s.pipelineEmpty → s.status = .running → s.pc.toNat ≤ 65531 →
    decode (s.instrMem.read s.pc.toNat) = .instr i → exec i s = .fault f →
    (∃ t, runCycles 3 s = .next t ∧ t.cycles = s.cycles + 3 ∧ t.reg = s.reg ∧ t.dataMem = s.dataMem) ∧
      runCycles 4 s = .fault f

/-- R161, R162, R122: a BEQ fetched into an empty pipeline decides in its fourth cycle as `exec` does: taken, `pc` is `exec`'s and
three bubbles stand behind it; not taken, the word at `exec`'s `pc` follows it. No register and no memory word changes. -/
def Obligations.LoneBranchRedirects : Prop :=
  ∀ (a b : RegIdx) (imm : BitVec 16) (s : State), s.pipelineEmpty → s.status = .running → s.pc.toNat ≤ 65531 →
    decode (s.instrMem.read s.pc.toNat) = .instr (.beq a b imm) →
    ∃ t u, runCycles 4 s = .next t ∧ exec (.beq a b imm) s = .next u ∧ t.status = .running ∧
      t.reg = s.reg ∧ t.dataMem = s.dataMem ∧ t.cycles = s.cycles + 4 ∧ t.memwb.instr = encode (.beq a b imm) ∧
      (s.readReg a = s.readReg b → t.pc = u.pc ∧ t.ifid.instr = noopWord ∧ t.idex.instr = noopWord ∧
        t.exmem.instr = noopWord) ∧
      (s.readReg a ≠ s.readReg b → t.exmem.instr = s.instrMem.read u.pc.toNat)

/-- R170, R220: a HALT fetched into an empty pipeline with a harmless word behind it stops the machine five cycles on, as `exec`
does, with every register and memory word unchanged. -/
def Obligations.LoneHaltStopsAfterFiveCycles : Prop :=
  ∀ (a b : RegIdx) (low : BitVec 16) (s : State), s.pipelineEmpty → s.status = .running → s.pc.toNat ≤ 65531 →
    decode (s.instrMem.read s.pc.toNat) = .instr (.halt a b low) →
    harmlessInMem (s.instrMem.read (s.pc + 1).toNat) = true →
    ∃ t, runCycles 6 s = .next t ∧ t.status = .halted ∧ t.reg = s.reg ∧ t.dataMem = s.dataMem ∧
      t.cycles = s.cycles + 5 ∧ ∀ k ≤ 5, ∀ u, runCycles k s = .next u → u.status = .running

/-- R217: the pipelined core is equivalent to the sequential machine: for every image whose sequential run reaches a HALT under
the rule's side conditions, the clocked run from `init(image)` ends normally with the same registers and the same data
memory (the spec's own derivation; the side conditions rest on decision D8, log entry 7). -/
def Obligations.PipelineRefinesTheSequentialMachine : Prop :=
  ∀ (image : List Word) (n : Nat) (v : State), SequentialHalt image n v →
    ∃ k t, runCycles k (State.load image) = .next t ∧ t.endedNormally ∧ t.reg = v.reg ∧ t.dataMem = v.dataMem

/-- R221: `cycles = I + S + 3*T + 4`, with `I = n + 1` the instructions the sequential machine executes up to and including the
HALT, `S` the stall cycles that take effect and `T` the taken BEQs (the spec's own derivation; `S` counts the stalls of
decision D9, log entry 9; which stalls take effect behind a HALT is log entry 20). -/
def Obligations.CycleCountIsInstructionsStallsAndBranches : Prop :=
  ∀ (image : List Word) (n : Nat) (v : State), SequentialHalt image n v →
    ∃ k t, runCycles k (State.load image) = .next t ∧ t.endedNormally ∧
      t.cycles = (n + 1) + stallCycles k (State.load image) + 3 * takenBranches n (State.load image) + 4

/-! ### Reset, load, memory, ports -/

/-- R42: the state after reset with nothing loaded. Registers and `cycles` are the source's; `pc`, the scratch fields and the
memories' zeros are decision D6, the no-op word decision D3 (log entries 4, 5, 6). -/
def Obligations.ResetState : Prop :=
  State.reset.pc = 0 ∧ (∀ r, State.reset.readReg r = 0) ∧ (∀ a, State.reset.instrMem.read a = 0) ∧
  (∀ a, State.reset.dataMem.read a = 0) ∧ State.reset.cycles = 0 ∧ State.reset.status = .running ∧
  State.reset.ifid = ⟨0x01C00000, 0⟩ ∧ State.reset.idex = ⟨0x01C00000, 0, 0, 0, 0⟩ ∧
  State.reset.exmem = ⟨0x01C00000, 0, 0, 0, 0⟩ ∧ State.reset.memwb = ⟨0x01C00000, 0⟩ ∧
  State.reset.wbend = ⟨0x01C00000, 0⟩

/-- R201: `instrMem[a] = dataMem[a] = image[a]` for `a < L`, 0 for `a >= L` (the 0 is decision D6, log entry 6); everything else
is as after reset. -/
def Obligations.LoadPutsTheImageInBothMemories : Prop :=
  ∀ (image : List Word), image.length ≤ 65536 →
    (∀ a (h : a < image.length), (State.load image).instrMem.read a = image[a] ∧ (State.load image).dataMem.read a = image[a]) ∧
    (∀ a, image.length ≤ a → (State.load image).instrMem.read a = 0 ∧ (State.load image).dataMem.read a = 0) ∧
    { State.load image with instrMem := State.reset.instrMem, dataMem := State.reset.dataMem } = State.reset

/-- R201: the core is started on exactly the lists of 0 to 65536 integers in -2^31 to 2^31-1, each standing for its pattern modulo
2^32 (what is no image is decision D18, log entry 16). -/
def Obligations.InitAcceptsExactlyTheImages : Prop :=
  ∀ (image : List Int) (s : State),
    State.init image = some s ↔
      image.length ≤ 65536 ∧ (∀ v ∈ image, -2 ^ 31 ≤ v ∧ v < 2 ^ 31) ∧ s = State.load (image.map (BitVec.ofInt 32))

/-- The canonical form of a memory (log entry 15): two memories in that form that read alike everywhere are equal data. -/
def Obligations.CanonicalMemoriesAreDeterminedByTheirReads : Prop :=
  ∀ m q : Memory, m.wf = true → q.wf = true → (∀ a, m.read a = q.read a) → m = q

/-- R202: what the ports announce is what the clock edge does: `halted` the stop, `faulted` a fault, `dmem_we` the store, at the
address and with the data on the ports (decision D16, log entry 21). -/
def Obligations.PortsAnnounceTheStep : Prop :=
  ∀ s : State, s.status = .running →
    (s.ports.halted = true ↔ ∃ t, step s = .next t ∧ t.status = .halted) ∧
    (s.ports.faulted = true ↔ ∃ f, step s = .fault f) ∧
    (∀ t, s.performsCycle → step s = .next t →
      t.dataMem = if s.ports.dmemWe = true then s.dataMem.write s.ports.dmemAddr.toNat s.ports.dmemWdata else s.dataMem)

/-! ### An instruction placed for one step -/

/-- R104, R122: the very next step runs the instruction that `withFetchWord` places. The word stands at `pc`, where that step
fetches it; registers, data memory, `pc`, `cycles` and `status` are still those of `s`; and the step leaves exactly the `pc`,
registers, data memory and status that `exec` leaves, or faults as `exec` faults. That the word has been carried ahead to
the cycle of its effect is the model's form of placing it (DESIGN CHOICE: log entry 16). -/
def Obligations.PlacedInstructionRunsAtTheNextStep : Prop :=
  ∀ (i : Instr) (s : State), s.status = .running → legalAddress s.pc → s.instrMem.wf = true →
    let p := s.withFetchWord 32 (encode i).toNat
    p.instrMem.read p.pc.toNat = encode i ∧
    p.pc = s.pc ∧ p.reg = s.reg ∧ p.dataMem = s.dataMem ∧ p.cycles = s.cycles ∧ p.status = s.status ∧
    (∀ u, exec i s = .next u →
      ∃ t, step p = .next t ∧ t.pc = u.pc ∧ t.reg = u.reg ∧ t.dataMem = u.dataMem ∧ t.status = u.status) ∧
    (∀ f, exec i s = .fault f → step p = .fault f)
end

