-- ==== Sys2Proof/Laws/Codec.lean ====
section
/-! SUPPORT. Laws of the codec: the fields of an assembled word, the class of an assembled word, the class of the no-op word,
and a word rebuilt from its own fields. -/

namespace Sys2Proof

/-! ### Fields of an assembled word -/

theorem assemble_eq_append (o : BitVec 10) (a b : RegIdx) (low : BitVec 16) :
    assemble o a b low = o ++ a ++ b ++ low := by
  unfold assemble opcodePos fieldAPos fieldBPos
  apply BitVec.eq_of_getLsbD_eq
  intro i hi
  simp only [BitVec.getLsbD_or, BitVec.getLsbD_shiftLeft, BitVec.getLsbD_setWidth, BitVec.getLsbD_append]
  interval_cases i <;> simp [BitVec.getLsbD_of_ge]

@[simp] theorem opcode_assemble (o : BitVec 10) (a b : RegIdx) (low : BitVec 16) :
    opcode (assemble o a b low) = o := by
  rw [assemble_eq_append]
  apply BitVec.eq_of_getLsbD_eq
  intro i hi
  simp only [opcode, opcodePos, BitVec.getLsbD_extractLsb', BitVec.getLsbD_append]
  interval_cases i <;> simp

@[simp] theorem fieldA_assemble (o : BitVec 10) (a b : RegIdx) (low : BitVec 16) :
    fieldA (assemble o a b low) = a := by
  rw [assemble_eq_append]
  apply BitVec.eq_of_getLsbD_eq
  intro i hi
  simp only [fieldA, fieldAPos, BitVec.getLsbD_extractLsb', BitVec.getLsbD_append]
  interval_cases i <;> simp

@[simp] theorem fieldB_assemble (o : BitVec 10) (a b : RegIdx) (low : BitVec 16) :
    fieldB (assemble o a b low) = b := by
  rw [assemble_eq_append]
  apply BitVec.eq_of_getLsbD_eq
  intro i hi
  simp only [fieldB, fieldBPos, BitVec.getLsbD_extractLsb', BitVec.getLsbD_append]
  interval_cases i <;> simp

@[simp] theorem imm16_assemble (o : BitVec 10) (a b : RegIdx) (low : BitVec 16) :
    imm16 (assemble o a b low) = low := by
  rw [assemble_eq_append]
  apply BitVec.eq_of_getLsbD_eq
  intro i hi
  simp only [imm16, BitVec.getLsbD_extractLsb', BitVec.getLsbD_append]
  interval_cases i <;> simp

/-- Field C and the ignored bits `[15:3]` are the two parts of the low half of a word. -/
theorem fieldC_eq_imm16 (w : Word) : fieldC w = (imm16 w).extractLsb' 0 3 := by
  apply BitVec.eq_of_getLsbD_eq
  intro i hi
  simp only [fieldC, imm16, BitVec.getLsbD_extractLsb']
  interval_cases i <;> simp

theorem unusedBits_eq_imm16 (w : Word) : unusedBits w = (imm16 w).extractLsb' 3 13 := by
  apply BitVec.eq_of_getLsbD_eq
  intro i hi
  simp only [unusedBits, imm16, unusedPos, BitVec.getLsbD_extractLsb']
  interval_cases i <;> simp

theorem extract_c_lowOfC (u : BitVec 13) (c : RegIdx) : (lowOfC u c).extractLsb' 0 3 = c := by
  apply BitVec.eq_of_getLsbD_eq
  intro i hi
  simp only [lowOfC, unusedPos, BitVec.getLsbD_extractLsb', BitVec.getLsbD_or, BitVec.getLsbD_shiftLeft,
    BitVec.getLsbD_setWidth]
  interval_cases i <;> simp

theorem extract_unused_lowOfC (u : BitVec 13) (c : RegIdx) : (lowOfC u c).extractLsb' 3 13 = u := by
  apply BitVec.eq_of_getLsbD_eq
  intro i hi
  simp only [lowOfC, unusedPos, BitVec.getLsbD_extractLsb', BitVec.getLsbD_or, BitVec.getLsbD_shiftLeft,
    BitVec.getLsbD_setWidth]
  interval_cases i <;> simp [BitVec.getLsbD_of_ge]

@[simp] theorem fieldC_assemble_lowOfC (o : BitVec 10) (a b : RegIdx) (u : BitVec 13) (c : RegIdx) :
    fieldC (assemble o a b (lowOfC u c)) = c := by
  rw [fieldC_eq_imm16, imm16_assemble, extract_c_lowOfC]

@[simp] theorem unusedBits_assemble_lowOfC (o : BitVec 10) (a b : RegIdx) (u : BitVec 13) (c : RegIdx) :
    unusedBits (assemble o a b (lowOfC u c)) = u := by
  rw [unusedBits_eq_imm16, imm16_assemble, extract_unused_lowOfC]

/-! ### A word is made of its fields -/

theorem assemble_fields (w : Word) : assemble (opcode w) (fieldA w) (fieldB w) (imm16 w) = w := by
  rw [assemble_eq_append]
  apply BitVec.eq_of_getLsbD_eq
  intro i hi
  simp only [opcode, fieldA, fieldB, imm16, opcodePos, fieldAPos, fieldBPos, BitVec.getLsbD_extractLsb',
    BitVec.getLsbD_append]
  interval_cases i <;> simp

theorem lowOfC_fields (w : Word) : lowOfC (unusedBits w) (fieldC w) = imm16 w := by
  apply BitVec.eq_of_getLsbD_eq
  intro i hi
  simp only [lowOfC, unusedBits, fieldC, imm16, unusedPos, BitVec.getLsbD_extractLsb', BitVec.getLsbD_or,
    BitVec.getLsbD_shiftLeft, BitVec.getLsbD_setWidth]
  interval_cases i <;> simp

/-! ### Classes -/

/-- The opcode selector of each class (R78). -/
def selectorOf : OpClass → Option (BitVec 10)
  | .add => some opcAdd
  | .nor => some opcNor
  | .lw => some opcLw
  | .sw => some opcSw
  | .beq => some opcBeq
  | .jalr => some opcJalr
  | .halt => some opcHalt
  | .noop => some opcNoop
  | .unsupported => none

/-- R78 read backwards: a word of a class of the table has that class's selector. -/
theorem opcode_of_op {w : Word} {c : OpClass} {o : BitVec 10} (h : op w = c) (hc : selectorOf c = some o) :
    opcode w = o := by
  unfold op at h
  simp only at h
  repeat' split at h
  all_goals (subst h; simp only [selectorOf, Option.some.injEq, reduceCtorEq] at hc)
  all_goals (rw [← hc]; assumption)

/-- The class of a word depends on its opcode selector alone (R78). -/
theorem op_congr {w v : Word} (h : opcode w = opcode v) : op w = op v := by simp only [op, h]

@[simp] theorem op_assemble (o : BitVec 10) (a b : RegIdx) (low : BitVec 16) :
    op (assemble o a b low) =
      if o = opcAdd then .add else if o = opcNor then .nor else if o = opcLw then .lw else if o = opcSw then .sw
      else if o = opcBeq then .beq else if o = opcJalr then .jalr else if o = opcHalt then .halt
      else if o = opcNoop then .noop else .unsupported := by
  simp only [op, opcode_assemble]

@[simp] theorem op_noopWord : op noopWord = .noop := by decide
@[simp] theorem fieldA_noopWord : fieldA noopWord = 0 := by decide
@[simp] theorem fieldB_noopWord : fieldB noopWord = 0 := by decide
@[simp] theorem offset_noopWord : offset noopWord = 0 := by decide

end Sys2Proof
end

