-- ==== Sys2Proof/Laws/State.lean ====
section
/-! SUPPORT. One lemma per field per update of State, true by rfl, so that no proof unfolds a record update. -/

namespace Sys2Proof.Machine

@[simp] theorem State.setPc_pc (s : State) (t : Word) : (s.setPc t).pc = t := rfl
@[simp] theorem State.setPc_reg (s : State) (t : Word) : (s.setPc t).reg = s.reg := rfl
@[simp] theorem State.setPc_instrMem (s : State) (t : Word) : (s.setPc t).instrMem = s.instrMem := rfl
@[simp] theorem State.setPc_dataMem (s : State) (t : Word) : (s.setPc t).dataMem = s.dataMem := rfl
@[simp] theorem State.setPc_cycles (s : State) (t : Word) : (s.setPc t).cycles = s.cycles := rfl
@[simp] theorem State.setPc_ifid (s : State) (t : Word) : (s.setPc t).ifid = s.ifid := rfl
@[simp] theorem State.setPc_idex (s : State) (t : Word) : (s.setPc t).idex = s.idex := rfl
@[simp] theorem State.setPc_exmem (s : State) (t : Word) : (s.setPc t).exmem = s.exmem := rfl
@[simp] theorem State.setPc_memwb (s : State) (t : Word) : (s.setPc t).memwb = s.memwb := rfl
@[simp] theorem State.setPc_wbend (s : State) (t : Word) : (s.setPc t).wbend = s.wbend := rfl
@[simp] theorem State.setPc_status (s : State) (t : Word) : (s.setPc t).status = s.status := rfl

@[simp] theorem State.writeReg_pc (s : State) (i : RegIdx) (v : Word) : (s.writeReg i v).pc = s.pc := rfl
@[simp] theorem State.writeReg_reg (s : State) (i : RegIdx) (v : Word) : (s.writeReg i v).reg = writeFile s.reg i v := rfl
@[simp] theorem State.writeReg_instrMem (s : State) (i : RegIdx) (v : Word) : (s.writeReg i v).instrMem = s.instrMem := rfl
@[simp] theorem State.writeReg_dataMem (s : State) (i : RegIdx) (v : Word) : (s.writeReg i v).dataMem = s.dataMem := rfl
@[simp] theorem State.writeReg_cycles (s : State) (i : RegIdx) (v : Word) : (s.writeReg i v).cycles = s.cycles := rfl
@[simp] theorem State.writeReg_ifid (s : State) (i : RegIdx) (v : Word) : (s.writeReg i v).ifid = s.ifid := rfl
@[simp] theorem State.writeReg_idex (s : State) (i : RegIdx) (v : Word) : (s.writeReg i v).idex = s.idex := rfl
@[simp] theorem State.writeReg_exmem (s : State) (i : RegIdx) (v : Word) : (s.writeReg i v).exmem = s.exmem := rfl
@[simp] theorem State.writeReg_memwb (s : State) (i : RegIdx) (v : Word) : (s.writeReg i v).memwb = s.memwb := rfl
@[simp] theorem State.writeReg_wbend (s : State) (i : RegIdx) (v : Word) : (s.writeReg i v).wbend = s.wbend := rfl
@[simp] theorem State.writeReg_status (s : State) (i : RegIdx) (v : Word) : (s.writeReg i v).status = s.status := rfl

@[simp] theorem State.memWrite_pc (s : State) (a v : Word) : (s.memWrite a v).pc = s.pc := rfl
@[simp] theorem State.memWrite_reg (s : State) (a v : Word) : (s.memWrite a v).reg = s.reg := rfl
@[simp] theorem State.memWrite_instrMem (s : State) (a v : Word) : (s.memWrite a v).instrMem = s.instrMem := rfl
@[simp] theorem State.memWrite_dataMem (s : State) (a v : Word) : (s.memWrite a v).dataMem = s.dataMem.write a.toNat v := rfl
@[simp] theorem State.memWrite_cycles (s : State) (a v : Word) : (s.memWrite a v).cycles = s.cycles := rfl
@[simp] theorem State.memWrite_ifid (s : State) (a v : Word) : (s.memWrite a v).ifid = s.ifid := rfl
@[simp] theorem State.memWrite_idex (s : State) (a v : Word) : (s.memWrite a v).idex = s.idex := rfl
@[simp] theorem State.memWrite_exmem (s : State) (a v : Word) : (s.memWrite a v).exmem = s.exmem := rfl
@[simp] theorem State.memWrite_memwb (s : State) (a v : Word) : (s.memWrite a v).memwb = s.memwb := rfl
@[simp] theorem State.memWrite_wbend (s : State) (a v : Word) : (s.memWrite a v).wbend = s.wbend := rfl
@[simp] theorem State.memWrite_status (s : State) (a v : Word) : (s.memWrite a v).status = s.status := rfl

@[simp] theorem State.stop_pc (s : State) : (s.stop).pc = s.pc := rfl
@[simp] theorem State.stop_reg (s : State) : (s.stop).reg = s.reg := rfl
@[simp] theorem State.stop_instrMem (s : State) : (s.stop).instrMem = s.instrMem := rfl
@[simp] theorem State.stop_dataMem (s : State) : (s.stop).dataMem = s.dataMem := rfl
@[simp] theorem State.stop_cycles (s : State) : (s.stop).cycles = s.cycles := rfl
@[simp] theorem State.stop_ifid (s : State) : (s.stop).ifid = s.ifid := rfl
@[simp] theorem State.stop_idex (s : State) : (s.stop).idex = s.idex := rfl
@[simp] theorem State.stop_exmem (s : State) : (s.stop).exmem = s.exmem := rfl
@[simp] theorem State.stop_memwb (s : State) : (s.stop).memwb = s.memwb := rfl
@[simp] theorem State.stop_wbend (s : State) : (s.stop).wbend = s.wbend := rfl
@[simp] theorem State.stop_status (s : State) : (s.stop).status = .halted := rfl

@[simp] theorem State.raise_pc (s : State) (f : Fault) : (s.raise f).pc = s.pc := rfl
@[simp] theorem State.raise_reg (s : State) (f : Fault) : (s.raise f).reg = s.reg := rfl
@[simp] theorem State.raise_instrMem (s : State) (f : Fault) : (s.raise f).instrMem = s.instrMem := rfl
@[simp] theorem State.raise_dataMem (s : State) (f : Fault) : (s.raise f).dataMem = s.dataMem := rfl
@[simp] theorem State.raise_cycles (s : State) (f : Fault) : (s.raise f).cycles = s.cycles := rfl
@[simp] theorem State.raise_ifid (s : State) (f : Fault) : (s.raise f).ifid = s.ifid := rfl
@[simp] theorem State.raise_idex (s : State) (f : Fault) : (s.raise f).idex = s.idex := rfl
@[simp] theorem State.raise_exmem (s : State) (f : Fault) : (s.raise f).exmem = s.exmem := rfl
@[simp] theorem State.raise_memwb (s : State) (f : Fault) : (s.raise f).memwb = s.memwb := rfl
@[simp] theorem State.raise_wbend (s : State) (f : Fault) : (s.raise f).wbend = s.wbend := rfl
@[simp] theorem State.raise_status (s : State) (f : Fault) : (s.raise f).status = .faulted f := rfl

@[simp] theorem cycle_pc (s : State) : (cycle s).pc = nextPc s := rfl
@[simp] theorem cycle_reg (s : State) : (cycle s).reg = writeBack s := rfl
@[simp] theorem cycle_instrMem (s : State) : (cycle s).instrMem = s.instrMem := rfl
@[simp] theorem cycle_dataMem (s : State) : (cycle s).dataMem = storeEffect s := rfl
@[simp] theorem cycle_cycles (s : State) : (cycle s).cycles = s.cycles + 1 := rfl
@[simp] theorem cycle_ifid (s : State) : (cycle s).ifid = nextIfid s := rfl
@[simp] theorem cycle_idex (s : State) : (cycle s).idex = nextIdex s := rfl
@[simp] theorem cycle_exmem (s : State) : (cycle s).exmem = nextExmem s := rfl
@[simp] theorem cycle_memwb (s : State) : (cycle s).memwb = memoryStage s := rfl
@[simp] theorem cycle_wbend (s : State) : (cycle s).wbend = writeBackStage s := rfl
@[simp] theorem cycle_status (s : State) : (cycle s).status = s.status := rfl

@[simp] theorem State.load_instrMem (image : List Word) : (State.load image).instrMem = Memory.ofWords 0 image := rfl
@[simp] theorem State.load_dataMem (image : List Word) : (State.load image).dataMem = Memory.ofWords 0 image := rfl
@[simp] theorem State.load_pc (image : List Word) : (State.load image).pc = State.reset.pc := rfl
@[simp] theorem State.load_reg (image : List Word) : (State.load image).reg = State.reset.reg := rfl
@[simp] theorem State.load_cycles (image : List Word) : (State.load image).cycles = State.reset.cycles := rfl
@[simp] theorem State.load_ifid (image : List Word) : (State.load image).ifid = State.reset.ifid := rfl
@[simp] theorem State.load_idex (image : List Word) : (State.load image).idex = State.reset.idex := rfl
@[simp] theorem State.load_exmem (image : List Word) : (State.load image).exmem = State.reset.exmem := rfl
@[simp] theorem State.load_memwb (image : List Word) : (State.load image).memwb = State.reset.memwb := rfl
@[simp] theorem State.load_wbend (image : List Word) : (State.load image).wbend = State.reset.wbend := rfl
@[simp] theorem State.load_status (image : List Word) : (State.load image).status = State.reset.status := rfl

end Sys2Proof.Machine
end

