-- ==== Sys2Proof/Laws/Ops.lean ====
section
/-! SUPPORT. Laws of the operations over memories and registers: reading after writing, the canonical form, legal addresses. -/

namespace Sys2Proof.Machine

/-! ### The canonical form -/

theorem Memory.wfFrom_cons {lo a : Nat} {v : Word} {m : Memory} :
    Memory.wfFrom lo ((a, v) :: m) = true ↔
      lo ≤ a ∧ a < Config.numMemory ∧ v ≠ Memory.unlisted ∧ Memory.wfFrom (a + 1) m = true := by
  simp only [Memory.wfFrom, Bool.and_eq_true, decide_eq_true_eq, and_assoc]

theorem Memory.wfFrom_mono {lo hi : Nat} {m : Memory} (h : lo ≤ hi) (hm : Memory.wfFrom hi m = true) :
    Memory.wfFrom lo m = true := by
  cases m with
  | nil => rfl
  | cons c m =>
    obtain ⟨a, v⟩ := c
    rw [Memory.wfFrom_cons] at hm ⊢
    exact ⟨h.trans hm.1, hm.2⟩

/-- An index below the canonical part reads as an unlisted word. -/
theorem Memory.read_below {lo a : Nat} {m : Memory} (hm : Memory.wfFrom lo m = true) (h : a < lo) :
    m.read a = Memory.unlisted := by
  induction m generalizing lo with
  | nil => rfl
  | cons c m ih =>
    obtain ⟨b, u⟩ := c
    rw [Memory.wfFrom_cons] at hm
    rw [Memory.read, if_neg (by omega)]
    exact ih hm.2.2.2 (by omega)

theorem Memory.wfFrom_write {lo a : Nat} {m : Memory} (v : Word) (hm : Memory.wfFrom lo m = true) (ha : lo ≤ a)
    (hcap : a < Config.numMemory) : Memory.wfFrom lo (m.write a v) = true := by
  induction m generalizing lo with
  | nil =>
    rw [Memory.write]
    split
    · rfl
    · exact Memory.wfFrom_cons.mpr ⟨ha, hcap, ‹_›, rfl⟩
  | cons c m ih =>
    obtain ⟨b, u⟩ := c
    have hc := Memory.wfFrom_cons.mp hm
    rw [Memory.write]
    split
    · split
      · exact hm
      · exact Memory.wfFrom_cons.mpr ⟨ha, hcap, ‹_›, Memory.wfFrom_cons.mpr ⟨by omega, hc.2⟩⟩
    · split
      · subst a
        split
        · exact Memory.wfFrom_mono (by omega) hc.2.2.2
        · exact Memory.wfFrom_cons.mpr ⟨ha, hcap, ‹_›, hc.2.2.2⟩
      · exact Memory.wfFrom_cons.mpr ⟨hc.1, hc.2.1, hc.2.2.1, ih hc.2.2.2 (by omega)⟩

/-- A write below the capacity keeps the canonical form. -/
theorem Memory.wf_write {m : Memory} {a : Nat} (v : Word) (hm : m.wf = true) (hcap : a < Config.numMemory) :
    (m.write a v).wf = true :=
  Memory.wfFrom_write v hm (Nat.zero_le _) hcap

theorem Memory.wfFrom_ofWords (image : List Word) (k : Nat) (h : k + image.length ≤ Config.numMemory) :
    Memory.wfFrom k (Memory.ofWords k image) = true := by
  induction image generalizing k with
  | nil => rfl
  | cons v vs ih =>
    simp only [List.length_cons] at h
    have hrest := ih (k + 1) (by omega)
    rw [Memory.ofWords]
    split
    · exact Memory.wfFrom_mono (by omega) hrest
    · exact Memory.wfFrom_cons.mpr ⟨le_refl _, by omega, ‹_›, hrest⟩

/-! ### Reading after writing -/

theorem Memory.read_write_from {lo : Nat} {m : Memory} (a : Nat) (v : Word) (hm : Memory.wfFrom lo m = true) (b : Nat) :
    (m.write a v).read b = if b = a then v else m.read b := by
  induction m generalizing lo with
  | nil =>
    rw [Memory.write]
    split
    · simp_all [Memory.read]
    · simp [Memory.read]
  | cons c m ih =>
    obtain ⟨d, u⟩ := c
    have hc := Memory.wfFrom_cons.mp hm
    rw [Memory.write]
    split
    · rename_i hlt
      split
      · rename_i hv
        split
        · rename_i hb
          subst hb
          rw [hv]
          exact Memory.read_below (Memory.wfFrom_mono (Nat.le_refl _) (Memory.wfFrom_cons.mpr ⟨le_refl d, hc.2⟩)) hlt
        · rfl
      · simp only [Memory.read]
    · split
      · rename_i had
        subst had
        split
        · rename_i hv
          split
          · rename_i hb
            subst hb
            rw [hv]
            exact Memory.read_below hc.2.2.2 (by omega)
          · rename_i hb
            rw [Memory.read, if_neg hb]
        · simp only [Memory.read]
          split <;> rfl
      · rename_i had
        simp only [Memory.read]
        split
        · rename_i hb
          subst hb
          rw [if_neg (by omega)]
        · exact ih hc.2.2.2

/-- A read after a write to the same index gives the value written; every other index reads as before. -/
theorem Memory.read_write {m : Memory} (a : Nat) (v : Word) (hm : m.wf = true) (b : Nat) :
    (m.write a v).read b = if b = a then v else m.read b :=
  Memory.read_write_from a v hm b

theorem Memory.read_ofWords (image : List Word) (k a : Nat) :
    (Memory.ofWords k image).read a = if k ≤ a then (image[a - k]?).getD Memory.unlisted else Memory.unlisted := by
  induction image generalizing k with
  | nil => simp [Memory.ofWords, Memory.read]
  | cons v vs ih =>
    have hrest := ih (k + 1)
    rw [Memory.ofWords]
    split
    · rename_i hv
      rw [hrest]
      by_cases hka : k = a
      · subst hka
        simp [hv]
      · by_cases hle : k ≤ a
        · rw [if_pos (by omega), if_pos hle, show a - k = (a - (k + 1)) + 1 by omega, List.getElem?_cons_succ]
        · rw [if_neg (by omega), if_neg hle]
    · rw [Memory.read, hrest]
      by_cases hka : a = k
      · subst hka
        simp
      · by_cases hle : k ≤ a
        · rw [if_neg hka, if_pos (by omega), if_pos hle, show a - k = (a - (k + 1)) + 1 by omega,
            List.getElem?_cons_succ]
        · rw [if_neg hka, if_neg (by omega), if_neg hle]

/-! ### Legal addresses -/

/-- R51: the signed reading of an address is legal exactly when its unsigned reading is below the capacity. -/
theorem inRange_iff (a : Word) : inRange a = true ↔ a.toNat < Config.numMemory := by
  simp only [inRange, Bool.and_eq_true, decide_eq_true_eq, BitVec.toInt_eq_toNat_cond, Config.numMemory]
  have := a.isLt
  split <;> constructor <;> omega

/-! ### Registers -/

@[simp] theorem readFile_writeFile (reg : Vector Word Config.numRegs) (i j : RegIdx) (v : Word) :
    readFile (writeFile reg i v) j = if i = j then v else readFile reg j := by
  simp only [readFile, writeFile, Vector.getElem_set]
  split
  · rename_i h
    rw [if_pos (BitVec.eq_of_toNat_eq h)]
  · rename_i h
    rw [if_neg (fun he => h (congrArg BitVec.toNat he))]

@[simp] theorem State.readReg_writeReg (s : State) (i j : RegIdx) (v : Word) :
    (s.writeReg i v).readReg j = if i = j then v else s.readReg j := readFile_writeFile s.reg i j v

@[simp] theorem State.readReg_setPc (s : State) (t : Word) (i : RegIdx) : (s.setPc t).readReg i = s.readReg i := rfl
@[simp] theorem State.readReg_memWrite (s : State) (a v : Word) (i : RegIdx) :
    (s.memWrite a v).readReg i = s.readReg i := rfl
@[simp] theorem State.readReg_stop (s : State) (i : RegIdx) : s.stop.readReg i = s.readReg i := rfl
@[simp] theorem State.readReg_raise (s : State) (f : Fault) (i : RegIdx) : (s.raise f).readReg i = s.readReg i := rfl

/-- Two register files with the same eight registers are the same. -/
theorem reg_ext {r q : Vector Word Config.numRegs} (h : ∀ i : RegIdx, readFile r i = readFile q i) : r = q := by
  apply Vector.ext
  intro i hi
  have hlt : i < 8 := hi
  simpa [readFile, BitVec.toNat_ofNat, Nat.mod_eq_of_lt hlt] using h (BitVec.ofNat 3 i)

/-! ### Reset -/

@[simp] theorem readFile_reset (i : RegIdx) : readFile State.reset.reg i = 0 := by
  simp [readFile, State.reset]

end Sys2Proof.Machine
end

