-- ==== Sys2Proof/Laws/Step.lean ====
section
/-! SUPPORT. What one clock cycle can do, said once: the cases of a step, what its fault check, its forwarding network and its
stages answer, and what one step of the sequential machine does. -/

namespace Sys2Proof.Machine

/-! ### The fault check -/

/-- R51: the statements' legal addresses are the ones the machine checks for. -/
theorem legalAddress_iff_inRange (a : Word) : legalAddress a ↔ inRange a = true := by
  simp only [legalAddress, inRange, Bool.and_eq_true, decide_eq_true_eq, Config.numMemory]
  omega

theorem faultOf_eq_none_iff (s : State) :
    faultOf s = none ↔ (accessesData s = true → inRange s.exmem.aluResult = true) ∧ inRange s.pc = true := by
  unfold faultOf
  split
  · rename_i h
    simp only [Bool.and_eq_true, Bool.not_eq_true'] at h
    simp [h.1, h.2]
  · rename_i h
    have himp : accessesData s = true → inRange s.exmem.aluResult = true := by
      intro ha
      by_contra hr
      exact h (by simp [ha, Bool.eq_false_iff.mpr hr])
    split <;> simp_all

theorem accessesData_iff (s : State) :
    accessesData s = true ↔ op s.exmem.instr = .lw ∨ op s.exmem.instr = .sw := by
  simp [accessesData]

theorem takenBranch_iff (s : State) :
    takenBranch s = true ↔ op s.exmem.instr = .beq ∧ s.exmem.eq = 1 := by
  simp [takenBranch, flagSet]

theorem stall_iff (s : State) :
    stall s = true ↔ op s.idex.instr = .lw ∧
      (fieldB s.idex.instr = fieldA s.ifid.instr ∨ fieldB s.idex.instr = fieldB s.ifid.instr) := by
  simp [stall]

/-! ### The cases of a step -/

theorem clockEdge_of_performs {s : State} (h : s.performsCycle) : clockEdge s = cycle s := by
  unfold clockEdge
  simp [h.1, h.2.1, h.2.2]

theorem step_of_performs {s : State} (h : s.performsCycle) : step s = .next (cycle s) := by
  unfold step
  simp [clockEdge_of_performs h, h.1]

theorem step_of_haltCheck {s : State} (hr : s.status = .running) (h : haltCheck s = true) : step s = .next s.stop := by
  have : clockEdge s = s.stop := by unfold clockEdge; simp [hr, h]
  unfold step
  simp [this]

theorem step_of_halted {s : State} (h : s.status = .halted) : step s = .next s := by
  have : clockEdge s = s := by unfold clockEdge; simp [h]
  unfold step
  simp [this, h]

theorem step_of_faulted {s : State} {f : Fault} (h : s.status = .faulted f) : step s = .fault f := by
  have : clockEdge s = s := by unfold clockEdge; simp [h]
  unfold step
  simp [this, h]

theorem clockEdge_of_faultOf {s : State} {f : Fault} (hr : s.status = .running) (hh : haltCheck s = false)
    (h : faultOf s = some f) : clockEdge s = s.raise f := by
  unfold clockEdge
  simp [hr, hh, h]

theorem step_of_faultOf {s : State} {f : Fault} (hr : s.status = .running) (hh : haltCheck s = false)
    (h : faultOf s = some f) : step s = .fault f := by
  unfold step
  simp [clockEdge_of_faultOf hr hh h]

/-- The four things a clock edge does: nothing when the machine has halted, the stop, a cycle, or a fault. -/
theorem step_trichotomy (s : State) :
    (s.status = .halted ∧ step s = .next s) ∨
    (s.status = .running ∧ haltCheck s = true ∧ step s = .next s.stop) ∨
    (s.performsCycle ∧ step s = .next (cycle s)) ∨
    (∃ f, step s = .fault f ∧
      (s.status = .faulted f ∨ (s.status = .running ∧ haltCheck s = false ∧ faultOf s = some f))) := by
  cases hs : s.status with
  | halted => exact .inl ⟨rfl, step_of_halted hs⟩
  | faulted f => exact .inr (.inr (.inr ⟨f, step_of_faulted hs, .inl rfl⟩))
  | running =>
    cases hh : haltCheck s with
    | true => exact .inr (.inl ⟨rfl, rfl, step_of_haltCheck hs hh⟩)
    | false =>
      cases hf : faultOf s with
      | none => exact .inr (.inr (.inl ⟨⟨hs, hh, hf⟩, step_of_performs ⟨hs, hh, hf⟩⟩))
      | some f => exact .inr (.inr (.inr ⟨f, step_of_faultOf hs hh hf, .inr ⟨rfl, rfl, rfl⟩⟩))

/-- A step that answers a next state is a halted machine staying as it is, the stop, or a cycle. -/
theorem step_cases {s t : State} (h : step s = .next t) :
    (s.status = .halted ∧ t = s) ∨ (s.status = .running ∧ haltCheck s = true ∧ t = s.stop) ∨
      (s.performsCycle ∧ t = cycle s) := by
  rcases step_trichotomy s with ⟨hs, he⟩ | ⟨hs, hh, he⟩ | ⟨hp, he⟩ | ⟨f, he, -⟩ <;> rw [he] at h
  · cases h; exact .inl ⟨hs, rfl⟩
  · cases h; exact .inr (.inl ⟨hs, hh, rfl⟩)
  · cases h; exact .inr (.inr ⟨hp, rfl⟩)
  · cases h

/-- One more cycle of a run. -/
theorem runCycles_succ (k : Nat) (s : State) :
    runCycles (k + 1) s =
      match step s with
      | .next t => runCycles k t
      | .fault f => .fault f
      | .refused r => .refused r := rfl

@[simp] theorem runCycles_zero (s : State) : runCycles 0 s = .next s := rfl

/-- A run of `j + k` cycles is a run of `k` cycles after `j`. -/
theorem runCycles_add {j : Nat} (k : Nat) {s t : State} (h : runCycles j s = .next t) :
    runCycles (j + k) s = runCycles k t := by
  induction j generalizing s with
  | zero => cases h; rw [Nat.zero_add]
  | succ j ih =>
    rw [show j + 1 + k = (j + k) + 1 by omega, runCycles_succ]
    rw [runCycles_succ] at h
    cases hs : step s with
    | next u => rw [hs] at h; exact ih h
    | fault f => rw [hs] at h; cases h
    | refused r => rw [hs] at h; cases h

/-- A run of the clocked machine is a run of the host's `core`. -/
theorem runCycles_eq_core_run (k : Nat) (s : State) : runCycles k s = Host.Core.run Sys2Proof.core k s := by
  induction k generalizing s with
  | zero => rfl
  | succ k ih =>
    have he : Sys2Proof.core.step s = step s := rfl
    refine Eq.trans ?_ (Host.Core.run.eq_2 Sys2Proof.core s k).symm
    rw [he, runCycles_succ]
    cases step s with
    | next t => exact ih t
    | fault f => rfl
    | refused r => rfl

/-! ### The equality flag -/

/-- R112: the flag is 1 exactly when the operands are equal. -/
theorem equalFlag_eq_one_iff (a b : Word) : equalFlag a b = 1 ↔ a = b := by
  unfold equalFlag difference
  split
  · rename_i h
    exact iff_of_true rfl (by simpa using BitVec.sub_eq_iff_eq_add.mp h)
  · rename_i h
    refine iff_of_false (by decide) (fun hab => h ?_)
    rw [hab, BitVec.sub_self]
    rfl

@[simp] theorem flagSet_equalFlag (a b : Word) : flagSet (equalFlag a b) = decide (a = b) := by
  rw [Bool.eq_iff_iff, decide_eq_true_eq, ← equalFlag_eq_one_iff]
  simp [flagSet]

theorem equalFlag_bool (a b : Word) : equalFlag a b = 0 ∨ equalFlag a b = 1 := by
  unfold equalFlag
  split
  · exact .inr rfl
  · exact .inl rfl

/-! ### The forwarding network -/

/-- R110: the most recent producer of the register wins, else the decode-time value stands. -/
theorem forwarded_eq (s : State) (r : RegIdx) (v : Word) :
    forwarded s r v =
      if destReg s.exmem.instr = some r then s.exmem.aluResult
      else if destReg s.memwb.instr = some r then s.memwb.writeData
      else if destReg s.wbend.instr = some r then s.wbend.writeData
      else v := by
  simp only [forwarded, forwardSources, List.foldl_cons, List.foldl_nil, override]

/-! ### The stages -/

theorem readFile_writeBack (s : State) (i : RegIdx) :
    readFile (writeBack s) i = if destReg s.memwb.instr = some i then s.memwb.writeData else s.readReg i := by
  unfold writeBack
  split
  · rename_i r h
    simp [State.writeReg, h, State.readReg]
  · rename_i h
    simp [h, State.readReg]

theorem storeEffect_eq (s : State) :
    storeEffect s =
      if op s.exmem.instr = .sw then s.dataMem.write s.exmem.aluResult.toNat s.exmem.readRegB else s.dataMem := by
  unfold storeEffect
  split <;> simp_all

theorem writeDataOf_eq (s : State) :
    writeDataOf s =
      if op s.exmem.instr = .lw then s.dataMem.read s.exmem.aluResult.toNat
      else if op s.exmem.instr = .noop ∨ op s.exmem.instr = .halt then 0
      else s.exmem.aluResult := by
  unfold writeDataOf
  split <;> simp_all [State.memRead]

theorem destReg_eq_none_of {w : Word} (h : op w ≠ .add ∧ op w ≠ .nor ∧ op w ≠ .lw) : destReg w = none := by
  unfold destReg
  split <;> simp_all

@[simp] theorem destReg_noopWord : destReg noopWord = none := by decide

/-! ### The sequential machine -/

/-- The class of a word that decodes is the class of its instruction. -/
theorem op_of_decode {w : Word} {i : Instr} (h : decode w = .instr i) : op w = i.opClass := by
  unfold decode at h
  cases hc : op w <;> rw [hc] at h <;> simp only [Decoded.instr.injEq, reduceCtorEq] at h <;> subst h <;> rfl

/-- What `exec` does with a word, by its class (R140 to R173). -/
theorem execWord_eq (w : Word) (v : State) :
    execWord w v =
      match op w with
      | .add => execAdd (fieldA w) (fieldB w) (fieldC w) v
      | .nor => execNor (fieldA w) (fieldB w) (fieldC w) v
      | .lw => execLw (fieldA w) (fieldB w) (imm16 w) v
      | .sw => execSw (fieldA w) (fieldB w) (imm16 w) v
      | .beq => execBeq (fieldA w) (fieldB w) (imm16 w) v
      | .jalr => execJalr v
      | .halt => execHalt v
      | .noop => execNoop v
      | .unsupported => inertWord v := by
  unfold execWord decode
  cases op w <;> rfl

/-- What a word in MEM hands to WB when its `aluResult` is `x` (R115). -/
def seqWriteData (w x : Word) (v : State) : Word := if op w = .lw then v.dataMem.read x.toNat else x

/-- One step of the running sequential machine at a word other than HALT, said by field: the registers, data memory and the `pc`
are the ones the word's class gives, and an access is in range. -/
theorem seqStep_effect {v v' : State} (hr : v.status = .running) (h : seqStep v = .next v')
    (hne : op (v.fetch v.pc) ≠ .halt) :
    let w := v.fetch v.pc
    let a := v.readReg (fieldA w)
    let b := v.readReg (fieldB w)
    let x := alu (op w) a b (offset w)
    inRange v.pc = true ∧
    ((op w = .lw ∨ op w = .sw) → inRange x = true) ∧
    v'.status = .running ∧
    v'.instrMem = v.instrMem ∧
    v'.reg = (match destReg w with | some r => writeFile v.reg r (seqWriteData w x v) | none => v.reg) ∧
    v'.dataMem = (if op w = .sw then v.dataMem.write x.toNat b else v.dataMem) ∧
    v'.pc = (if op w = .beq ∧ equalFlag a b = 1 then branchTarget (nextIndex v.pc) (offset w) else nextIndex v.pc) := by
  intro w a b x
  unfold seqStep at h
  simp only [hr] at h
  split at h
  case isFalse => cases h
  case isTrue hpc =>
    refine ⟨hpc, ?_⟩
    rw [execWord_eq] at h
    change op w ≠ .halt at hne
    change (match op w with
      | .add => execAdd (fieldA w) (fieldB w) (fieldC w) v
      | .nor => execNor (fieldA w) (fieldB w) (fieldC w) v
      | .lw => execLw (fieldA w) (fieldB w) (imm16 w) v
      | .sw => execSw (fieldA w) (fieldB w) (imm16 w) v
      | .beq => execBeq (fieldA w) (fieldB w) (imm16 w) v
      | .jalr => execJalr v
      | .halt => execHalt v
      | .noop => execNoop v
      | .unsupported => inertWord v) = _ at h
    have hx : x = alu (op w) a b (offset w) := rfl
    cases hop : op w <;> rw [hop] at h hx <;> simp only at h
    case halt => exact absurd hop hne
    case lw =>
      unfold execLw at h
      simp only at h
      split at h
      · cases h
        rename_i hin
        simp only [alu] at hx
        refine ⟨fun _ => hx ▸ hin, hr, rfl, ?_⟩
        simp [destReg, hop, seqWriteData, State.memRead, hx, offset, a]
      · cases h
    case sw =>
      unfold execSw at h
      simp only at h
      split at h
      · cases h
        rename_i hin
        simp only [alu] at hx
        refine ⟨fun _ => hx ▸ hin, hr, rfl, ?_⟩
        simp [destReg, hop, hx, offset, a, b]
      · cases h
    case beq =>
      unfold execBeq at h
      cases h
      simp [destReg, hop, hr, flagSet, offset, a, b]
    all_goals
      first
        | unfold execAdd at h
        | unfold execNor at h
        | unfold execJalr at h
        | unfold execNoop at h
        | unfold inertWord at h
      cases h
      simp [destReg, hop, hr, seqWriteData, hx, alu, a, b]

end Sys2Proof.Machine
end

