-- ==== Sys2Proof/Laws/InFlight.lean ====
section
/-! SUPPORT. Laws of a word alone in the pipeline: what stays, which word each slot holds, what EX latches for it, and what
`beforeEffect` keeps. -/

namespace Sys2Proof.Machine

variable (s : State) (w : Word)

@[simp] theorem State.executed_pc : (s.executed w).pc = s.pc := rfl
@[simp] theorem State.executed_reg : (s.executed w).reg = s.reg := rfl
@[simp] theorem State.executed_dataMem : (s.executed w).dataMem = s.dataMem := rfl
@[simp] theorem State.executed_status : (s.executed w).status = s.status := rfl
@[simp] theorem State.executed_ifid_instr : (s.executed w).ifid.instr = noopWord := rfl
@[simp] theorem State.executed_idex_instr : (s.executed w).idex.instr = noopWord := rfl
@[simp] theorem State.executed_exmem_instr : (s.executed w).exmem.instr = w := rfl
@[simp] theorem State.executed_memwb_instr : (s.executed w).memwb.instr = noopWord := rfl
@[simp] theorem State.executed_wbend_instr : (s.executed w).wbend.instr = noopWord := rfl

@[simp] theorem State.accessed_pc : (s.accessed w).pc = s.pc := rfl
@[simp] theorem State.accessed_reg : (s.accessed w).reg = s.reg := rfl
@[simp] theorem State.accessed_dataMem : (s.accessed w).dataMem = s.dataMem := rfl
@[simp] theorem State.accessed_status : (s.accessed w).status = s.status := rfl
@[simp] theorem State.accessed_idex_instr : (s.accessed w).idex.instr = noopWord := rfl
@[simp] theorem State.accessed_exmem_instr : (s.accessed w).exmem.instr = noopWord := rfl
@[simp] theorem State.accessed_memwb_instr : (s.accessed w).memwb.instr = w := rfl
@[simp] theorem State.accessed_memwb_writeData : (s.accessed w).memwb.writeData = writeDataOf (s.executed w) := rfl
@[simp] theorem State.accessed_wbend_instr : (s.accessed w).wbend.instr = noopWord := rfl

@[simp] theorem State.completed_pc : (s.completed w).pc = s.pc := rfl
@[simp] theorem State.completed_reg : (s.completed w).reg = s.reg := rfl
@[simp] theorem State.completed_dataMem : (s.completed w).dataMem = s.dataMem := rfl
@[simp] theorem State.completed_status : (s.completed w).status = s.status := rfl
@[simp] theorem State.completed_wbend_instr : (s.completed w).wbend.instr = w := rfl

/-- R110: with no producer in the pipeline the operands are the registers. -/
@[simp] theorem State.operandA_decoded : operandA (s.decoded w) = s.readReg (fieldA w) := by
  have h (v : Word) : forwarded (s.decoded w) (fieldA w) v = v := by
    rw [forwarded_eq]
    simp [State.decoded, State.emptied, State.reset]
  exact h _

@[simp] theorem State.operandB_decoded : operandB (s.decoded w) = s.readReg (fieldB w) := by
  have h (v : Word) : forwarded (s.decoded w) (fieldB w) v = v := by
    rw [forwarded_eq]
    simp [State.decoded, State.emptied, State.reset]
  exact h _

/-- R112: what EX latches for a word alone in the pipeline. -/
theorem State.executed_exmem :
    (s.executed w).exmem =
      { instr := w, branchTarget := branchTarget (nextIndex s.pc) (offset w),
        eq := equalFlag (s.readReg (fieldA w)) (s.readReg (fieldB w)),
        aluResult := alu (op w) (s.readReg (fieldA w)) (s.readReg (fieldB w)) (offset w),
        readRegB := s.readReg (fieldB w) } := by
  have h : (s.executed w).exmem =
      { instr := w, branchTarget := branchTarget (nextIndex s.pc) (offset w),
        eq := equalFlag (operandA (s.decoded w)) (operandB (s.decoded w)),
        aluResult := alu (op w) (operandA (s.decoded w)) (operandB (s.decoded w)) (offset w),
        readRegB := operandB (s.decoded w) } := rfl
  rw [h, State.operandA_decoded, State.operandB_decoded]

/-- `beforeEffect` changes the pipeline registers alone. -/
theorem State.beforeEffect_frame :
    (s.beforeEffect w).pc = s.pc ∧ (s.beforeEffect w).reg = s.reg ∧ (s.beforeEffect w).instrMem = s.instrMem ∧
      (s.beforeEffect w).dataMem = s.dataMem ∧ (s.beforeEffect w).cycles = s.cycles ∧
      (s.beforeEffect w).status = s.status := by
  unfold State.beforeEffect
  cases op w
  case lw => simp only []; split <;> exact ⟨rfl, rfl, rfl, rfl, rfl, rfl⟩
  all_goals exact ⟨rfl, rfl, rfl, rfl, rfl, rfl⟩

end Sys2Proof.Machine
end

