-- ==== Sys2Proof/Laws/PerInstr.lean ====
section
/-! SUPPORT. Facts about every instruction, one lemma per constructor: the class of its encoding (spec 30_encoding.md R78), and the
register fields that the hazard detector and the forwarding network read from its encoding (R73, R74). -/

namespace Sys2Proof

/-- Field A of an instruction, an operand or an ignored field (R82). -/
def Instr.regA : Instr → RegIdx
  | .add a _ _ _ => a
  | .nor a _ _ _ => a
  | .lw a _ _ => a
  | .sw a _ _ => a
  | .beq a _ _ => a
  | .jalr a _ _ => a
  | .halt a _ _ => a
  | .noop a _ _ => a

/-- Field B of an instruction. -/
def Instr.regB : Instr → RegIdx
  | .add _ b _ _ => b
  | .nor _ b _ _ => b
  | .lw _ b _ => b
  | .sw _ b _ => b
  | .beq _ b _ => b
  | .jalr _ b _ => b
  | .halt _ b _ => b
  | .noop _ b _ => b

end Sys2Proof

namespace Sys2Proof.Laws.EncodeClass

/-- The encoding of an instruction has its opcode class. -/
def Statement (i : Instr) : Prop := op (encode i) = i.opClass

theorem add (a b : RegIdx) (u : BitVec 13) (c : RegIdx) : Statement (.add a b u c) :=
  op_assemble _ _ _ _
theorem nor (a b : RegIdx) (u : BitVec 13) (c : RegIdx) : Statement (.nor a b u c) :=
  op_assemble _ _ _ _
theorem lw (a b : RegIdx) (imm : BitVec 16) : Statement (.lw a b imm) :=
  op_assemble _ _ _ _
theorem sw (a b : RegIdx) (imm : BitVec 16) : Statement (.sw a b imm) :=
  op_assemble _ _ _ _
theorem beq (a b : RegIdx) (imm : BitVec 16) : Statement (.beq a b imm) :=
  op_assemble _ _ _ _
theorem jalr (a b : RegIdx) (low : BitVec 16) : Statement (.jalr a b low) :=
  op_assemble _ _ _ _
theorem halt (a b : RegIdx) (low : BitVec 16) : Statement (.halt a b low) :=
  op_assemble _ _ _ _
theorem noop (a b : RegIdx) (low : BitVec 16) : Statement (.noop a b low) :=
  op_assemble _ _ _ _

end Sys2Proof.Laws.EncodeClass

namespace Sys2Proof.Laws.EncodeRegisters

/-- The register fields of the encoding are the instruction's. -/
def Statement (i : Instr) : Prop := fieldA (encode i) = i.regA ∧ fieldB (encode i) = i.regB

theorem add (a b : RegIdx) (u : BitVec 13) (c : RegIdx) : Statement (.add a b u c) :=
  ⟨fieldA_assemble _ _ _ _, fieldB_assemble _ _ _ _⟩
theorem nor (a b : RegIdx) (u : BitVec 13) (c : RegIdx) : Statement (.nor a b u c) :=
  ⟨fieldA_assemble _ _ _ _, fieldB_assemble _ _ _ _⟩
theorem lw (a b : RegIdx) (imm : BitVec 16) : Statement (.lw a b imm) :=
  ⟨fieldA_assemble _ _ _ _, fieldB_assemble _ _ _ _⟩
theorem sw (a b : RegIdx) (imm : BitVec 16) : Statement (.sw a b imm) :=
  ⟨fieldA_assemble _ _ _ _, fieldB_assemble _ _ _ _⟩
theorem beq (a b : RegIdx) (imm : BitVec 16) : Statement (.beq a b imm) :=
  ⟨fieldA_assemble _ _ _ _, fieldB_assemble _ _ _ _⟩
theorem jalr (a b : RegIdx) (low : BitVec 16) : Statement (.jalr a b low) :=
  ⟨fieldA_assemble _ _ _ _, fieldB_assemble _ _ _ _⟩
theorem halt (a b : RegIdx) (low : BitVec 16) : Statement (.halt a b low) :=
  ⟨fieldA_assemble _ _ _ _, fieldB_assemble _ _ _ _⟩
theorem noop (a b : RegIdx) (low : BitVec 16) : Statement (.noop a b low) :=
  ⟨fieldA_assemble _ _ _ _, fieldB_assemble _ _ _ _⟩

end Sys2Proof.Laws.EncodeRegisters
end

