-- ==== Sys2Proof/Laws/Simulation.lean ====
section
/-! SUPPORT. The relation between the clocked machine and the sequential machine that R217 and R221 rest on: which words of the
pipeline are real (fetched on the executed path) and which are bubbles, and what one cycle does to the relation. `v` is the
sequential state before the effect of the word in EXMEM. -/

namespace Sys2Proof.Machine

/-- The value a register operand read at decode time has after the two older producers (WB/END, then MEM/WB). -/
def olderForwarded (s : State) (r : RegIdx) (x : Word) : Word :=
  if destReg s.memwb.instr = some r then s.memwb.writeData
  else if destReg s.wbend.instr = some r then s.wbend.writeData
  else x

/-- One for a real slot, none for a bubble. -/
def slot (b : Bool) : Word := if b then 1 else 0

/-- What EX has latched for the word at `v.pc` with the operand values of `v` (R112). -/
def executedAt (v : State) : ExMem :=
  let w := v.fetch v.pc
  { instr := w, branchTarget := branchTarget (nextIndex v.pc) (offset w),
    eq := equalFlag (v.readReg (fieldA w)) (v.readReg (fieldB w)),
    aluResult := alu (op w) (v.readReg (fieldA w)) (v.readReg (fieldB w)) (offset w),
    readRegB := v.readReg (fieldB w) }

/-- The word in IDEX was fetched at index `a`, and its register values are right after the older producers. -/
structure DecodedAt (s v : State) (a : Word) : Prop where
  instr : s.idex.instr = v.fetch a
  pcPlus1 : s.idex.pcPlus1 = nextIndex a
  offset : s.idex.offset = offset s.idex.instr
  readRegA : olderForwarded s (fieldA s.idex.instr) s.idex.readRegA = v.readReg (fieldA s.idex.instr)
  readRegB : olderForwarded s (fieldB s.idex.instr) s.idex.readRegB = v.readReg (fieldB s.idex.instr)

/-- The simulation relation. `e`, `d`, `f` say whether EXMEM, IDEX and IFID hold a real word. -/
structure Sim (e d f : Bool) (s v : State) : Prop where
  running : s.status = .running
  seqRunning : v.status = .running
  instrMem : s.instrMem = v.instrMem
  dataMem : s.dataMem = v.dataMem
  reg : writeBack s = v.reg
  wbend : op s.wbend.instr ≠ .halt
  memwb : op s.memwb.instr ≠ .halt
  pc : s.pc = v.pc + slot e + slot d + slot f
  exmem : if e then s.exmem = executedAt v else s.exmem.instr = noopWord
  idex : if d then DecodedAt s v (v.pc + slot e) else s.idex.instr = noopWord
  ifid : if f then s.ifid = { instr := v.fetch (v.pc + slot e + slot d), pcPlus1 := nextIndex (v.pc + slot e + slot d) }
    else s.ifid.instr = noopWord
  loadUse : e = true → d = true → op s.exmem.instr = .lw →
    fieldB s.exmem.instr ≠ fieldA s.idex.instr ∧ fieldB s.exmem.instr ≠ fieldB s.idex.instr
  realBehindIdex : d = true → f = true
  realBehindExmem : e = true → f = true
  bubbleBehindLoad : e = true → op s.exmem.instr ≠ .lw → d = true

/-- The initial states of the two machines are related, the pipeline holding three bubbles. -/
theorem sim_load (image : List Word) : Sim false false false (State.load image) (State.load image) where
  running := rfl
  seqRunning := rfl
  instrMem := rfl
  dataMem := rfl
  reg := by simp [writeBack, State.reset]
  wbend := by simp [State.reset]
  memwb := by simp [State.reset]
  pc := by simp [slot]
  exmem := rfl
  idex := rfl
  ifid := rfl
  loadUse := by simp
  realBehindIdex := by simp
  realBehindExmem := by simp
  bubbleBehindLoad := by simp

variable {e d f : Bool} {s v : State}

theorem sim_fetch (h : Sim e d f s v) (a : Word) : s.fetch a = v.fetch a := by
  simp [State.fetch, h.instrMem]

/-- The operand values EX resolves for a real word, from the register file of the sequential machine after the word in
EXMEM. -/
theorem sim_operand (h : Sim e true f s v) (r : RegIdx) (x : Word) (hx : olderForwarded s r x = v.readReg r)
    (hload : e = true → op s.exmem.instr = .lw → fieldB s.exmem.instr ≠ r) :
    forwarded s r x =
      if e = true ∧ destReg s.exmem.instr = some r then s.exmem.aluResult else v.readReg r := by
  rw [forwarded_eq]
  cases e with
  | false =>
    have he : s.exmem.instr = noopWord := by simpa using h.exmem
    simpa [he, olderForwarded] using hx
  | true =>
    by_cases hd : destReg s.exmem.instr = some r
    · simp [hd]
    · simpa [hd, olderForwarded] using hx

/-- The register value of the sequential machine after the word in EXMEM, where that machine's registers are `s`'s after WB. -/
theorem sim_readReg_after {v' : State}
    (hreg : v'.reg = match destReg s.exmem.instr with
      | some r => writeFile v.reg r (writeDataOf s)
      | none => v.reg) (r : RegIdx) :
    v'.readReg r = if destReg s.exmem.instr = some r then writeDataOf s else v.readReg r := by
  unfold State.readReg
  rw [hreg]
  cases hd : destReg s.exmem.instr with
  | none => simp
  | some q => simp

/-- A value supplied from EXMEM is the value that is written back, unless the producer is a load. -/
theorem writeDataOf_of_producer {r : RegIdx} (hd : destReg s.exmem.instr = some r) (hl : op s.exmem.instr ≠ .lw) :
    writeDataOf s = s.exmem.aluResult := by
  rw [writeDataOf_eq, if_neg hl]
  split
  · rename_i hc
    unfold destReg at hd
    rcases hc with hc | hc <;> simp [hc] at hd
  · rfl

/-- The operand value EX resolves is the register's value in the sequential machine after the word in EXMEM (R127). -/
theorem sim_operand_after {v' : State} (h : Sim e true f s v)
    (hreg : v'.reg = match destReg s.exmem.instr with
      | some r => writeFile v.reg r (writeDataOf s)
      | none => v.reg) (r : RegIdx) (x : Word) (hx : olderForwarded s r x = v.readReg r)
    (hload : e = true → op s.exmem.instr = .lw → fieldB s.exmem.instr ≠ r) :
    forwarded s r x = v'.readReg r := by
  rw [sim_operand h r x hx hload, sim_readReg_after hreg]
  cases e with
  | false =>
    have he : s.exmem.instr = noopWord := by simpa using h.exmem
    simp [he]
  | true =>
    by_cases hd : destReg s.exmem.instr = some r
    · rw [if_pos ⟨rfl, hd⟩, if_pos hd, writeDataOf_of_producer hd]
      intro hl
      have : destReg s.exmem.instr = some (fieldB s.exmem.instr) := by simp [destReg, hl]
      exact hload rfl hl (by simpa [this] using hd)
    · rw [if_neg (fun hc => hd hc.2), if_neg hd]

/-- One cycle without a taken branch: the slots move on, a stall puts a bubble in IDEX. -/
theorem sim_cycle_of_not_taken {v' : State} (h : Sim e d f s v) (hnt : takenBranch s = false)
    (hrun : v'.status = .running) (himem : v'.instrMem = v.instrMem) (hdmem : v'.dataMem = storeEffect s)
    (hreg : v'.reg = match destReg s.exmem.instr with
      | some r => writeFile v.reg r (writeDataOf s)
      | none => v.reg)
    (hpc : v'.pc = v.pc + slot e) (hnh : op s.exmem.instr ≠ .halt) :
    Sim d (f && !stall s) true (cycle s) v' := by
  have hfetch : ∀ a, v'.fetch a = v.fetch a := fun a => by simp [State.fetch, himem]
  have hstall : stall s = true → d = true ∧ f = true := by
    intro hs
    have hd : d = true := by
      cases d with
      | true => rfl
      | false =>
        have : s.idex.instr = noopWord := by simpa using h.idex
        simp [stall_iff, this] at hs
    exact ⟨hd, h.realBehindIdex hd⟩
  have hifid : f = true → s.ifid =
      { instr := v.fetch (v.pc + slot e + slot d), pcPlus1 := nextIndex (v.pc + slot e + slot d) } := by
    intro hf
    simpa [hf] using h.ifid
  constructor
  case running => exact h.running
  case seqRunning => exact hrun
  case instrMem => exact h.instrMem.trans himem.symm
  case dataMem => exact hdmem.symm
  case reg =>
    rw [hreg, ← h.reg]
    rfl
  case wbend => exact h.memwb
  case memwb => exact hnh
  case pc =>
    simp only [cycle_pc, nextPc, hnt, Bool.false_eq_true, if_false, hpc]
    cases hs : stall s with
    | true => simp [h.pc, slot, (hstall hs).1, (hstall hs).2]
    | false => simp [h.pc, slot, nextIndex]
  case exmem =>
    cases d with
    | false =>
      have : s.idex.instr = noopWord := by simpa using h.idex
      simp [nextExmem, hnt, executeStage, this]
    | true =>
      have hx : DecodedAt s v (v.pc + slot e) := by simpa using h.idex
      have hA := sim_operand_after h hreg _ _ hx.readRegA (fun he hl => (h.loadUse he rfl hl).1)
      have hB := sim_operand_after h hreg _ _ hx.readRegB (fun he hl => (h.loadUse he rfl hl).2)
      have hw : v'.fetch v'.pc = s.idex.instr := by rw [hfetch, hpc, hx.instr]
      have hp : s.idex.pcPlus1 = nextIndex v'.pc := by rw [hx.pcPlus1, hpc]
      simp only [if_true, cycle_exmem, nextExmem, hnt, Bool.false_eq_true, if_false, executeStage, executedAt, hw, operandA,
        operandB, hA, hB, hp, hx.offset]
  case idex =>
    cases hs : stall s with
    | true => simp [nextIdex, hs]
    | false =>
      cases f with
      | false =>
        have : s.ifid.instr = noopWord := by simpa using h.ifid
        simp [nextIdex, hs, hnt, decodeStage, this]
      | true =>
        have hread : ∀ r, olderForwarded (cycle s) r (s.readReg r) = v'.readReg r := by
          intro r
          have hv : v.readReg r = readFile (writeBack s) r := by rw [h.reg]; rfl
          rw [sim_readReg_after hreg, hv, readFile_writeBack]
          rfl
        have hi := hifid rfl
        simp only [Bool.not_false, Bool.and_true, if_true]
        constructor
        case instr => simp [nextIdex, hs, hnt, decodeStage, hi, hfetch, hpc]
        case pcPlus1 => simp [nextIdex, hs, hnt, decodeStage, hi, hpc]
        case offset => simp [nextIdex, hs, hnt, decodeStage]
        case readRegA => simpa [nextIdex, hs, hnt, decodeStage] using hread (fieldA s.ifid.instr)
        case readRegB => simpa [nextIdex, hs, hnt, decodeStage] using hread (fieldB s.ifid.instr)
  case ifid =>
    cases hs : stall s with
    | true =>
      obtain ⟨hd, hf⟩ := hstall hs
      simp [nextIfid, hs, hnt, hifid hf, hd, hfetch, hpc, slot]
    | false => simp [nextIfid, hs, hnt, fetchStage, sim_fetch h, hfetch, hpc, h.pc]
  case loadUse =>
    intro hd hf hl
    simp only [Bool.and_eq_true, Bool.not_eq_true'] at hf
    simp only [cycle_exmem, nextExmem, hnt, Bool.false_eq_true, if_false, executeStage] at hl ⊢
    have hns : ¬ stall s = true := by simp [hf.2]
    rw [stall_iff] at hns
    simp only [cycle_idex, nextIdex, hnt, hf.2, Bool.or_self, Bool.false_eq_true, if_false, decodeStage]
    exact ⟨fun hc => hns ⟨hl, .inl hc⟩, fun hc => hns ⟨hl, .inr hc⟩⟩
  case realBehindIdex => exact fun _ => rfl
  case realBehindExmem => exact fun _ => rfl
  case bubbleBehindLoad =>
    intro hd hl
    simp only [cycle_exmem, nextExmem, hnt, Bool.false_eq_true, if_false, executeStage] at hl
    have hns : stall s = false := by
      by_contra hc
      exact hl ((stall_iff s).mp (by simpa using hc)).1
    simp [hns, h.realBehindIdex hd]

/-- One cycle with a taken branch in MEM: three bubbles, and the `pc` at the target (R117). -/
theorem sim_cycle_of_taken {v' : State} (h : Sim true d f s v) (ht : takenBranch s = true)
    (hrun : v'.status = .running) (himem : v'.instrMem = v.instrMem) (hdmem : v'.dataMem = s.dataMem)
    (hreg : v'.reg = v.reg) (hpc : v'.pc = s.exmem.branchTarget) :
    Sim false false false (cycle s) v' := by
  have hb := ((takenBranch_iff s).mp ht).1
  constructor
  case running => exact h.running
  case seqRunning => exact hrun
  case instrMem => exact h.instrMem.trans himem.symm
  case dataMem => simp [storeEffect_eq, hb, hdmem]
  case reg =>
    rw [hreg, ← h.reg]
    simp [writeBack, memoryStage, destReg, hb]
  case wbend => exact h.memwb
  case memwb => simp [memoryStage, hb]
  case pc => simp [nextPc, ht, hpc, slot]
  case exmem => simp [nextExmem, ht]
  case idex => simp [nextIdex, ht]
  case ifid => simp [nextIfid, ht]
  case loadUse => simp
  case realBehindIdex => simp
  case realBehindExmem => simp
  case bubbleBehindLoad => simp

/-! ### The three things a cycle does to the relation -/

theorem sim_performs (h : Sim e d f s v) (hpc : inRange s.pc = true)
    (hdata : e = true → op s.exmem.instr = .lw ∨ op s.exmem.instr = .sw → inRange s.exmem.aluResult = true) :
    s.performsCycle := by
  refine ⟨h.running, by simp [haltCheck, h.wbend], (faultOf_eq_none_iff s).mpr ⟨?_, hpc⟩⟩
  intro ha
  rw [accessesData_iff] at ha
  cases e with
  | true => exact hdata rfl ha
  | false =>
    have : s.exmem.instr = noopWord := by simpa using h.exmem
    simp [this] at ha

/-- A bubble in MEM: the cycle is performed and the sequential machine does not move. -/
theorem sim_bubble (h : Sim false d f s v) (hpc : inRange s.pc = true) :
    s.performsCycle ∧ Sim d (f && !stall s) true (cycle s) v := by
  have he : s.exmem.instr = noopWord := by simpa using h.exmem
  have hnt : takenBranch s = false := by simp [takenBranch, he]
  refine ⟨sim_performs h hpc (by simp), sim_cycle_of_not_taken h hnt h.seqRunning rfl ?_ ?_ ?_ ?_⟩
  · simp [storeEffect_eq, he, h.dataMem]
  · simp [he]
  · simp [slot]
  · simp [he]

/-- A real word other than HALT in MEM: the cycle is performed and the sequential machine makes its step. A taken branch leaves
three bubbles behind it, any other word the slots one further on. -/
theorem sim_advance {v' : State} (h : Sim true d f s v) (hpc : inRange s.pc = true)
    (hne : op (v.fetch v.pc) ≠ .halt) (hstep : seqStep v = .next v') :
    s.performsCycle ∧
      (if takenBranch s = true then Sim false false false (cycle s) v'
       else Sim d (f && !stall s) true (cycle s) v') := by
  have hx : s.exmem = executedAt v := by simpa using h.exmem
  obtain ⟨-, hin, hrun, himem, hreg, hdmem, hpc'⟩ := seqStep_effect h.seqRunning hstep hne
  have hi : s.exmem.instr = v.fetch v.pc := by rw [hx]; rfl
  have ha : s.exmem.aluResult = alu (op (v.fetch v.pc)) (v.readReg (fieldA (v.fetch v.pc)))
      (v.readReg (fieldB (v.fetch v.pc))) (offset (v.fetch v.pc)) := by rw [hx]; rfl
  have hb : s.exmem.readRegB = v.readReg (fieldB (v.fetch v.pc)) := by rw [hx]; rfl
  have heq : s.exmem.eq = equalFlag (v.readReg (fieldA (v.fetch v.pc))) (v.readReg (fieldB (v.fetch v.pc))) := by
    rw [hx]; rfl
  have ht : s.exmem.branchTarget = branchTarget (nextIndex v.pc) (offset (v.fetch v.pc)) := by rw [hx]; rfl
  refine ⟨sim_performs h hpc (fun _ hls => ?_), ?_⟩
  · rw [ha]
    exact hin (by rwa [← hi])
  · have hdm : v'.dataMem = storeEffect s := by rw [hdmem, storeEffect_eq, hi, ← ha, ← hb, h.dataMem]
    split
    · rename_i htk
      obtain ⟨h1, h2⟩ := (takenBranch_iff s).mp htk
      rw [hi] at h1
      rw [heq] at h2
      refine sim_cycle_of_taken h htk hrun himem ?_ ?_ ?_
      · simpa [h1, h.dataMem] using hdmem
      · simpa [destReg, h1] using hreg
      · rw [hpc', if_pos ⟨h1, h2⟩, ht]
    · rename_i htk
      rw [takenBranch_iff, hi, heq] at htk
      have hnt : takenBranch s = false := by
        rw [← Bool.not_eq_true, takenBranch_iff, hi, heq]
        exact htk
      refine sim_cycle_of_not_taken h hnt hrun himem hdm ?_ ?_ ?_
      · rw [hreg, hi]
        cases hd : destReg (v.fetch v.pc) with
        | none => rfl
        | some r =>
          have : seqWriteData (v.fetch v.pc) s.exmem.aluResult v = writeDataOf s := by
            rw [writeDataOf_eq, hi, seqWriteData, h.dataMem]
            unfold destReg at hd
            split
            · rfl
            · split
              · rename_i hc
                rcases hc with hc | hc <;> simp [hc] at hd
              · rfl
          simp only [← ha, this]
      · rw [hpc', if_neg htk]
        simp [nextIndex, slot]
      · rw [hi]
        exact hne

/-! ### The end of the run -/

/-- The fetch index stays at most three words ahead of the sequential machine, so within memory (R216). -/
theorem sim_pc_inRange (h : Sim e d f s v) (hidx : v.pc.toNat ≤ 65532) : inRange s.pc = true := by
  rw [inRange_iff, h.pc]
  cases e <;> cases d <;> cases f <;> simp only [slot, Bool.false_eq_true, if_true, if_false, Config.numMemory] <;> bv_omega

theorem not_access_of_harmless (hw : harmlessInMem s.exmem.instr = true) :
    accessesData s = false ∧ takenBranch s = false ∧ storeEffect s = s.dataMem := by
  unfold harmlessInMem at hw
  unfold accessesData takenBranch
  rw [storeEffect_eq]
  cases ho : op s.exmem.instr <;> simp [ho] at hw ⊢

/-- A HALT in MEM with a harmless word behind it: two more cycles are performed, then the halt check succeeds, and neither the
registers of the sequential machine nor its memory change (R212). -/
theorem sim_halt (h : Sim true d f s v) (hh : op (v.fetch v.pc) = .halt)
    (hharm : harmlessInMem (v.fetch (nextIndex v.pc)) = true) (hidx : v.pc.toNat ≤ 65531) :
    s.performsCycle ∧ (cycle s).performsCycle ∧ haltCheck (cycle (cycle s)) = true ∧
      (cycle (cycle s)).reg = v.reg ∧ (cycle (cycle s)).dataMem = v.dataMem := by
  have hx : s.exmem = executedAt v := by simpa using h.exmem
  have hi : op s.exmem.instr = .halt := by rw [hx]; exact hh
  have hd : d = true := h.bubbleBehindLoad rfl (by rw [hi]; decide)
  have hf : f = true := h.realBehindExmem rfl
  subst hd hf
  have hid : s.idex.instr = v.fetch (nextIndex v.pc) := by
    have : DecodedAt s v (v.pc + slot true) := by simpa using h.idex
    exact this.instr
  have hnt : takenBranch s = false := by simp [takenBranch, hi]
  have hns : stall s = false := by
    rw [← Bool.not_eq_true, stall_iff]
    intro hc
    rw [← hid] at hharm
    simp [harmlessInMem, hc.1] at hharm
  have hp : s.performsCycle := sim_performs h (sim_pc_inRange h (by omega)) (by simp [hi])
  have hex : (cycle s).exmem.instr = v.fetch (nextIndex v.pc) := by simp [nextExmem, hnt, executeStage, hid]
  obtain ⟨ha, -, hst⟩ := not_access_of_harmless (s := cycle s) (by rw [hex]; exact hharm)
  have hpc1 : inRange (cycle s).pc = true := by
    rw [inRange_iff]
    simp only [cycle_pc, nextPc, hnt, hns, Bool.false_eq_true, if_false, h.pc, nextIndex, slot, if_true, Config.numMemory]
    bv_omega
  refine ⟨hp, ⟨h.running, ?_, (faultOf_eq_none_iff _).mpr ⟨by simp [ha], hpc1⟩⟩, ?_, ?_, ?_⟩
  · simp [haltCheck, writeBackStage, h.memwb]
  · simp [haltCheck, writeBackStage, memoryStage, hi]
  · have hdest : destReg s.exmem.instr = none := destReg_eq_none_of (by simp [hi])
    rw [cycle_reg]
    unfold writeBack
    simp only [cycle_memwb, memoryStage, hdest, cycle_reg]
    exact h.reg
  · rw [cycle_dataMem, hst, cycle_dataMem, storeEffect_eq, if_neg (by simp [hi])]
    exact h.dataMem

end Sys2Proof.Machine
end

