-- ==== Sys2Proof/Tests/Slice0.lean ====
section
/-! SUPPORT. The model's own tests. Expected values are those of spec/95_test_vectors.md (named V-…, P…) or worked by hand from the
rule named; the witnesses meet the hypotheses of the statements. -/

namespace Sys2Proof.Tests

open Sys2Proof.Machine

/-! ### Well-formedness: an ill-formed term for each check (R82) -/

theorem test_wf_refuses_add_unused : (Instr.add 1 2 511 3).wellFormed = false := by decide
theorem test_wf_refuses_nor_unused : (Instr.nor 1 2 1 3).wellFormed = false := by decide
theorem test_wf_refuses_jalr_low : (Instr.jalr 4 7 1).wellFormed = false := by decide
theorem test_wf_refuses_halt_a : (Instr.halt 1 0 0).wellFormed = false := by decide
theorem test_wf_refuses_halt_b : (Instr.halt 0 1 0).wellFormed = false := by decide
theorem test_wf_refuses_halt_low : (Instr.halt 0 0 1).wellFormed = false := by decide
theorem test_wf_refuses_noop_a : (Instr.noop 1 0 0).wellFormed = false := by decide
theorem test_wf_refuses_noop_b : (Instr.noop 0 1 0).wellFormed = false := by decide
theorem test_wf_refuses_noop_low : (Instr.noop 0 0 1).wellFormed = false := by decide
theorem test_wf_accepts : (Instr.add 1 2 0 3).wellFormed && (Instr.lw 0 1 0xFFFF).wellFormed = true := by decide

/-! ### Decoding: words written bit by bit from R79 -/

theorem test_decode_add : decode 0b0000000_000_001_010_0000000000000_011 = .instr (.add 1 2 0 3) := by decide
theorem test_decode_add_ignored_bits :
    decode 0b0000000_000_001_010_0000111111111_011 = .instr (.add 1 2 511 3) := by decide
theorem test_decode_nor : decode 0b0000000_001_001_010_0000000000000_011 = .instr (.nor 1 2 0 3) := by decide
theorem test_decode_lw : decode 0b0000000_010_000_001_0000000000000100 = .instr (.lw 0 1 4) := by decide
theorem test_decode_sw : decode 0b0000000_011_000_010_0000000000000101 = .instr (.sw 0 2 5) := by decide
theorem test_decode_beq : decode 0b0000000_100_000_001_1111111111111101 = .instr (.beq 0 1 0xFFFD) := by decide
theorem test_decode_jalr : decode 0b0000000_101_100_111_0000000000000000 = .instr (.jalr 4 7 0) := by decide
theorem test_decode_halt : decode 0b0000000_110_000_000_0000000000000000 = .instr (.halt 0 0 0) := by decide
theorem test_decode_noop : decode 0b0000000_111_000_000_0000000000000000 = .instr (.noop 0 0 0) := by decide
theorem test_decode_unsupported : decode 0b0000001_000_000_000_0000000000000000 = .unsupported 8 := by decide
theorem test_encode_lw : encode (.lw 0 1 4) = 0x00810004 := by decide
theorem test_encode_beq : encode (.beq 0 0 0xFFFD) = 0x0100FFFD := by decide
theorem test_decodeTableWord : decodeTableWord 32 0x01670000 = some (.jalr 4 7 0) := by decide
theorem test_decodeTableWord_unsupported : decodeTableWord 32 0x02000000 = none := by decide
theorem test_sext16 : sext16 0x8000 = 0xFFFF8000 ∧ sext16 0x7FFF = 32767 := by decide

/-! ### Parameters (R6) -/

theorem test_forward_sources (s : State) : (forwardSources s).length = Config.fwdSources := rfl

/-! ### Instructions, one step each -/

/-- The next state of an outcome, none for a fault or a refusal. -/
def nextOf (o : Host.Outcome State Fault Refusal) : Option State :=
  match o with
  | .next t => some t
  | .fault _ => none
  | .refused _ => none

/-- The fault of an outcome. -/
def faultIn (o : Host.Outcome State Fault Refusal) : Option Fault :=
  match o with
  | .fault f => some f
  | .next _ => none
  | .refused _ => none

/-- Registers 0 to 7 hold 0, 5, 7, -1, 65535, 65536, 0x7FFFFFFF, 1; data memory holds 21 at 4 and 9 at 65535. -/
def small : State :=
  { State.reset with
    pc := 3
    reg := #v[0, 5, 7, 0xFFFFFFFF, 65535, 65536, 0x7FFFFFFF, 1]
    dataMem := [(4, 21), (65535, 9)] }

theorem test_add : (nextOf (exec (.add 1 2 0 3) small)).map (fun t => (t.readReg 3, t.pc)) = some (12, 4) := by decide
theorem test_add_wraps : (nextOf (exec (.add 6 7 511 0) small)).map (·.readReg 0) = some 0x80000000 := by decide
theorem test_nor : (nextOf (exec (.nor 1 2 0 0) small)).map (·.readReg 0) = some 0xFFFFFFF8 := by decide
theorem test_lw : (nextOf (exec (.lw 0 1 4) small)).map (fun t => (t.readReg 1, t.pc)) = some (21, 4) := by decide
theorem test_lw_last_word : (nextOf (exec (.lw 5 1 0xFFFF) small)).map (·.readReg 1) = some 9 := by decide
theorem test_lw_negative_faults : faultIn (exec (.lw 0 1 0xFFFF) small) = some (.dataOutOfRange 0xFFFFFFFF) := by decide
theorem test_sw : (nextOf (exec (.sw 0 1 4) small)).map (·.dataMem) = some [(4, 5), (65535, 9)] := by decide
theorem test_sw_zero_keeps_canonical : (nextOf (exec (.sw 1 0 0xFFFF) small)).map (·.dataMem) = some [(65535, 9)] := by
  decide
theorem test_beq_taken : (nextOf (exec (.beq 0 0 0xFFFD) small)).map (·.pc) = some 1 := by decide
theorem test_beq_not_taken : (nextOf (exec (.beq 0 1 1) small)).map (·.pc) = some 4 := by decide
theorem test_jalr_inert : nextOf (exec (.jalr 4 7 0) small) = some { small with pc := 4 } := by decide
theorem test_halt : nextOf (exec (.halt 0 0 0) small) = some { small with status := .halted } := by decide
theorem test_noop : nextOf (exec (.noop 0 0 0) small) = some { small with pc := 4 } := by decide

/-! ### One cycle -/

/-- Program P3 after its second cycle: `add 1 1 2` in IF/ID behind `lw 0 1 4` in ID/EX. -/
def stalling : State :=
  { State.load [0x00810004, 0x00090002, 0x00C20005, 0x01800000, 21] with
    pc := 2
    cycles := 2
    ifid := ⟨0x00090002, 2⟩
    idex := ⟨0x00810004, 1, 0, 0, 4⟩ }

/-- Program P7 after its third cycle: a taken `beq 0 0 3` in EX/MEM, a load-use pair behind it. -/
def squashing : State :=
  { State.load [0x01000003, 0x00810006, 0x00090002, 0x01C00000, 0x01800000, 0, 9] with
    pc := 3
    cycles := 3
    ifid := ⟨0x00090002, 3⟩
    idex := ⟨0x00810006, 2, 0, 0, 6⟩
    exmem := ⟨0x01000003, 4, 1, 0, 0⟩ }

/-- Program P5 after its seventh cycle: three producers of register 1 (V-FW-5). -/
def forwarding : State :=
  { State.reset with
    idex := ⟨0x00090003, 5, 0, 0, 3⟩
    exmem := ⟨0x000A0001, 0, 0, 40, 10⟩
    memwb := ⟨0x000A0001, 30⟩
    wbend := ⟨0x00120001, 20⟩ }

/-- P3, cycle 3: the stall, with its scratch fields. -/
theorem test_cycle_stall :
    (nextOf (step stalling)).map (fun t => (t.pc, t.ifid, t.idex, t.exmem)) =
      some (2, ⟨0x00090002, 2⟩, ⟨noopWord, 2, 0, 0, 2⟩, ⟨0x00810004, 5, 1, 4, 0⟩) := by decide
/-- P7, cycle 4 (V-PR-1): the redirect beats the stall. -/
theorem test_cycle_squash :
    (nextOf (step squashing)).map (fun t => (t.pc, t.ifid.instr, t.idex.instr, t.exmem.instr, t.memwb.instr)) =
      some (4, noopWord, noopWord, noopWord, 0x01000003) := by decide
/-- P5, cycle 8: the most recent producer wins on both operands, and the sum is 80. -/
theorem test_cycle_forwarding :
    (nextOf (step forwarding)).map (fun t => (t.exmem.aluResult, t.readReg 1)) = some (80, 30) := by decide
/-- V-MEM-2, V-WB-3: a store in MEM and a load in WB in one cycle. -/
theorem test_cycle_store_and_write_back :
    (nextOf (step { State.reset with exmem := ⟨0x00C20005, 0, 0, 5, 42⟩, memwb := ⟨0x00810004, 21⟩ })).map
      (fun t => (t.dataMem, t.readReg 1)) = some ([(5, 42)], 21) := by decide
/-- V-PR-3: the halt check hides a fetch fault. -/
theorem test_halt_before_fault :
    nextOf (step { State.reset with wbend := ⟨0x01800000, 0⟩, pc := 70000 }) =
      some { State.reset with wbend := ⟨0x01800000, 0⟩, pc := 70000, status := .halted } := by decide
/-- V-PR-4: the data fault comes before the fetch fault. -/
theorem test_data_fault_before_fetch_fault :
    faultIn (step { State.reset with exmem := ⟨0x00810004, 0, 0, 0xFFFFFFFF, 0⟩, pc := 70000 }) =
      some (.dataOutOfRange 0xFFFFFFFF) := by decide
/-- V-PR-5. -/
theorem test_fetch_fault : faultIn (step { State.reset with pc := 65536 }) = some (.fetchOutOfRange 65536) := by decide
/-- V-HZ-9, V-HZ-16: the no-op word stalls behind a load of register 0; a load's base field is not compared. -/
theorem test_hazard_fields :
    stall { State.reset with idex := ⟨0x00800003, 0, 0, 0, 0⟩ } = true ∧
      stall { State.reset with idex := ⟨0x00880004, 0, 0, 0, 0⟩, ifid := ⟨0x000A0003, 0⟩ } = false := by decide
/-- The host's entry: the very next step fetches the word and gives it its effect. `add 1 2 3` gives 5 + 7 (R140). -/
theorem test_withFetchWord_add :
    (nextOf (step (small.withFetchWord 32 0x000A0003))).map (fun t => (t.ifid.instr, t.pc, t.readReg 3)) =
      some (0x000A0003, 4, 12) := by decide
theorem test_withFetchWord_halt_from_reset :
    (nextOf (step (State.reset.withFetchWord 32 0x01800000))).map (fun t => (t.status, t.pc)) = some (.halted, 0) := by decide
theorem test_init_refuses : State.init [2147483648] = none ∧ State.init [-1] = some (State.load [0xFFFFFFFF]) := by decide

/-! ### Witnesses: the hypotheses of each statement are met -/

theorem wit_stalling_performs : stalling.performsCycle := by unfold State.performsCycle; decide
theorem wit_squashing_performs : squashing.performsCycle := by unfold State.performsCycle; decide
theorem wit_reset_performs : State.reset.performsCycle := by unfold State.performsCycle; decide

theorem wit_EncodeOfDecode : decode 0x000A0FFB = .instr (.add 1 2 511 3) := by decide
/-- `LwLoadsTheWord` at the last legal address, 65536 - 1, and at the first, 0. -/
theorem wit_LwLoads : legalAddress (small.readReg 5 + sext16 0xFFFF) ∧ legalAddress (small.readReg 0 + sext16 0) := by
  unfold legalAddress; decide
theorem wit_SwStores : small.dataMem.wf = true ∧ legalAddress (effectiveAddress (small.readReg 4) (sext16 0)) := by
  unfold legalAddress; decide
/-- `LwAndSwFaultOutOfRange` just above and just below the legal addresses. -/
theorem wit_LwSwFault : ¬ legalAddress (small.readReg 5 + sext16 0) ∧ ¬ legalAddress (small.readReg 0 + sext16 0xFFFF) := by
  unfold legalAddress; decide
theorem wit_JalrAndNoop : (Instr.jalr 4 7 1).opClass = .jalr ∧ (Instr.noop 0 0 0).opClass = .noop := by decide
theorem wit_Unsupported : 33554432 ≤ (0x02000000 : Word).toNat ∧ 33554432 ≤ (0xFFFFFFFF : Word).toNat := by decide

/-- A word that writes register 0 in WB. -/
def writesZero : State := { State.reset with memwb := ⟨0x00400000, 0xFFFFFFFF⟩ }
theorem wit_RegisterZero :
    legalAddress (small.readReg 4 + sext16 0) ∧ writesZero.performsCycle ∧ step writesZero = .next (cycle writesZero) ∧
      destReg writesZero.memwb.instr = some 0 := by
  have h : writesZero.performsCycle := by unfold State.performsCycle; decide
  exact ⟨by unfold legalAddress; decide, h, step_of_performs h, by decide⟩

/-- A HALT in WB/END. -/
def halting : State := { State.reset with wbend := ⟨0x01800000, 0⟩ }
theorem wit_HaltCheck : halting.status = .running ∧ op halting.wbend.instr = .halt := by decide
theorem wit_NoHaltCheck :
    State.reset.status = .running ∧ op State.reset.wbend.instr ≠ .halt ∧ step State.reset = .next (cycle State.reset) :=
  ⟨rfl, by decide, step_of_performs wit_reset_performs⟩
theorem wit_Terminal :
    State.reset.stop.status = .halted ∧ (State.reset.raise (.fetchOutOfRange 65536)).status = .faulted (.fetchOutOfRange 65536) :=
  ⟨rfl, rfl⟩

/-- A fetch just above memory; a store and a load just outside it. -/
def fetchAbove : State := { State.reset with pc := 65536 }
def storeAbove : State := { State.reset with exmem := ⟨0x00C20005, 0, 0, 65536, 1⟩ }
def loadBelow : State := { State.reset with exmem := ⟨0x00810004, 0, 0, 0xFFFFFFFF, 0⟩ }
theorem wit_StepFaults_fetch : fetchAbove.status = .running ∧ step fetchAbove = .fault (.fetchOutOfRange 65536) :=
  ⟨rfl, step_of_faultOf rfl (by decide) (by decide)⟩
theorem wit_StepFaults_store : storeAbove.status = .running ∧ step storeAbove = .fault (.dataOutOfRange 65536) :=
  ⟨rfl, step_of_faultOf rfl (by decide) (by decide)⟩
theorem wit_StepFaults_load : loadBelow.status = .running ∧ step loadBelow = .fault (.dataOutOfRange 0xFFFFFFFF) :=
  ⟨rfl, step_of_faultOf rfl (by decide) (by decide)⟩
theorem wit_NextState : step State.reset = .next (cycle State.reset) := step_of_performs wit_reset_performs
/-- `CycleCompletesWhenInRange` with both addresses the last legal ones. -/
theorem wit_CycleCompletes :
    let s : State := { State.reset with pc := 65535, exmem := ⟨0x00810004, 0, 0, 65535, 0⟩ }
    s.status = .running ∧ op s.wbend.instr ≠ .halt ∧
      (op s.exmem.instr = .lw ∨ op s.exmem.instr = .sw → legalAddress s.exmem.aluResult) ∧ legalAddress s.pc := by
  unfold legalAddress; decide
theorem wit_CyclesCount_stands : ¬ halting.performsCycle ∧ step halting = .next halting.stop :=
  ⟨by unfold State.performsCycle; decide, step_of_haltCheck rfl (by decide)⟩
theorem wit_CyclesCount_exec : ∃ t, exec (.add 1 2 0 3) small = .next t := ⟨_, rfl⟩
theorem wit_InstructionMemory :
    Memory.read [(9, 1)] State.reset.pc.toNat = State.reset.instrMem.read State.reset.pc.toNat := by decide

theorem wit_FetchAndDecode : State.reset.performsCycle ∧ stall State.reset = false ∧ takenBranch State.reset = false :=
  ⟨wit_reset_performs, by decide, by decide⟩
theorem wit_Stall :
    takenBranch stalling = false ∧ op stalling.idex.instr = .lw ∧
      (fieldB stalling.idex.instr = fieldA stalling.ifid.instr ∧ fieldB stalling.idex.instr = fieldB stalling.ifid.instr) := by
  decide
theorem wit_NoTwoStalls : stall stalling = true ∧ step stalling = .next (cycle stalling) :=
  ⟨by decide, step_of_performs wit_stalling_performs⟩

/-- One word of each class in ID/EX, EX/MEM and MEM/WB. -/
def everywhere (w : Word) : State :=
  { State.reset with idex := ⟨w, 1, 0, 0, 0⟩, exmem := ⟨w, 1, 0, 0, 0⟩, memwb := ⟨w, 0⟩ }
/-- One word of each class, the unsupported among them. -/
def oneOfEach : List Word :=
  [0x000A0003, 0x004A0003, 0x00810004, 0x00C20005, 0x01010001, 0x01670000, 0x01800000, 0x01C00000, 0xFFFFFFFF]
/-- The hypotheses of `ExecuteLatchesTheResult`, `MemoryStageLoadsAndStores`, `WriteBackWritesAtMostOneRegister` and
`CyclesCountCompletedCycles`, for a word of every class in the stage. -/
theorem wit_stages :
    ∀ w ∈ oneOfEach, (everywhere w).performsCycle ∧ takenBranch (everywhere w) = false ∧ (everywhere w).dataMem.wf = true := by
  intro w hw
  unfold State.performsCycle
  simp only [oneOfEach, List.mem_cons, List.not_mem_nil, or_false] at hw
  rcases hw with rfl | rfl | rfl | rfl | rfl | rfl | rfl | rfl | rfl <;> decide
theorem wit_stage_classes :
    oneOfEach.map op = [.add, .nor, .lw, .sw, .beq, .jalr, .halt, .noop, .unsupported] := by decide

/-- The hypotheses of `TakenBranchRedirectsAndSquashes`, `SquashedWordsHaveNoEffect`, and the first case of
`OnlyTakenBranchesRedirect`. -/
theorem wit_TakenBranch :
    squashing.performsCycle ∧ op squashing.exmem.instr = .beq ∧ squashing.exmem.eq = 1 ∧
      step squashing = .next (cycle squashing) :=
  ⟨wit_squashing_performs, by decide, by decide, step_of_performs wit_squashing_performs⟩
theorem wit_NotTakenBranch :
    (everywhere 0x01010001).performsCycle ∧ op (everywhere 0x01010001).exmem.instr = .beq ∧
      (everywhere 0x01010001).exmem.eq ≠ 1 :=
  ⟨(wit_stages _ (by decide)).1, by decide, by decide⟩
theorem wit_OnlyLwAndSw :
    step State.reset = .next (cycle State.reset) ∧ op State.reset.exmem.instr ≠ .lw ∧ op State.reset.exmem.instr ≠ .sw ∧
      exec (.noop 0 0 0) small = .next (small.setPc 4) ∧ (Instr.noop 0 0 0).opClass ≠ .lw ∧ (Instr.noop 0 0 0).opClass ≠ .sw :=
  ⟨wit_NextState, by decide, by decide, rfl, by decide, by decide⟩

theorem wit_StepKeepsInvariant : stalling.Inv ∧ step stalling = .next (cycle stalling) :=
  ⟨by unfold State.Inv State.loadUseFree State.ownImmediate; decide, step_of_performs wit_stalling_performs⟩
/-- The shortest and a non-trivial image. -/
theorem wit_Load : ([] : List Word).length ≤ 65536 ∧ ([7, 0, 9] : List Word).length ≤ 65536 := by decide
/-- A load in EX/MEM and behind it a word that does not read its register. -/
def loadAhead : State := { State.reset with exmem := ⟨0x00810004, 0, 0, 4, 0⟩, idex := ⟨0x00120003, 0, 0, 0, 3⟩ }
theorem wit_LoadAddress : loadAhead.Inv ∧ op loadAhead.exmem.instr = .lw ∧ loadAhead.idex.instr ≠ noopWord := by
  unfold State.Inv State.loadUseFree State.ownImmediate; decide
/-- Two states that differ in don't-care fields only. -/
theorem wit_NonInterference :
    State.reset.status = .running ∧
      State.Agree State.reset { State.reset with exmem := ⟨noopWord, 9, 1, 8, 7⟩, memwb := ⟨noopWord, 6⟩ } := by
  refine ⟨rfl, ?_⟩
  constructor <;> decide

/-- `w` at index 0 of an otherwise empty machine. -/
def loneWord (w : Word) : State := State.load [w]
theorem wit_SequentialStep :
    (loneWord 0x004A0003).status = .running ∧ legalAddress (loneWord 0x004A0003).pc ∧
      decode ((loneWord 0x004A0003).instrMem.read (loneWord 0x004A0003).pc.toNat) = .instr (.nor 1 2 0 3) := by
  unfold legalAddress; decide
theorem wit_StepsRun :
    (loneWord 0x00810004).pipelineEmpty ∧ (loneWord 0x00810004).status = .running ∧ (loneWord 0x00810004).pc.toNat ≤ 65531 ∧
      decode ((loneWord 0x00810004).instrMem.read (loneWord 0x00810004).pc.toNat) = .instr (.lw 0 1 4) ∧
      harmlessInMem ((loneWord 0x00810004).instrMem.read ((loneWord 0x00810004).pc + 1).toNat) = true ∧
      exec (.lw 0 1 4) (loneWord 0x00810004) = .next (((loneWord 0x00810004).writeReg 1 0).setPc 1) := by
  refine ⟨?_, ?_, ?_, ?_, ?_, rfl⟩
  · unfold State.pipelineEmpty; decide
  all_goals decide
theorem wit_LoneAccess :
    (loneWord 0x00C0FFFF).pipelineEmpty ∧ (loneWord 0x00C0FFFF).status = .running ∧ (loneWord 0x00C0FFFF).pc.toNat ≤ 65531 ∧
      decode ((loneWord 0x00C0FFFF).instrMem.read (loneWord 0x00C0FFFF).pc.toNat) = .instr (.sw 0 0 0xFFFF) ∧
      exec (.sw 0 0 0xFFFF) (loneWord 0x00C0FFFF) = .fault (.dataOutOfRange 0xFFFFFFFF) :=
  ⟨by unfold State.pipelineEmpty; decide, rfl, by decide, by decide, rfl⟩
/-- `LoneBranchRedirects`, with equal and with unequal registers: `beq 0 0 3`, and `beq 0 1 3` with register 1 holding 1. -/
def unequalBranch : State := (loneWord 0x01010003).writeReg 1 1
theorem wit_LoneBranch_equal :
    (loneWord 0x01000003).pipelineEmpty ∧ (loneWord 0x01000003).status = .running ∧ (loneWord 0x01000003).pc.toNat ≤ 65531 ∧
      decode ((loneWord 0x01000003).instrMem.read (loneWord 0x01000003).pc.toNat) = .instr (.beq 0 0 3) ∧
      (loneWord 0x01000003).readReg 0 = (loneWord 0x01000003).readReg 0 := by
  refine ⟨?_, rfl, ?_, ?_, rfl⟩
  · unfold State.pipelineEmpty; decide
  all_goals decide
theorem wit_LoneBranch_unequal :
    unequalBranch.pipelineEmpty ∧ unequalBranch.status = .running ∧ unequalBranch.pc.toNat ≤ 65531 ∧
      decode (unequalBranch.instrMem.read unequalBranch.pc.toNat) = .instr (.beq 0 1 3) ∧
      unequalBranch.readReg 0 ≠ unequalBranch.readReg 1 := by
  refine ⟨?_, rfl, ?_, ?_, ?_⟩
  · unfold State.pipelineEmpty; decide
  all_goals decide
theorem wit_LoneHalt :
    (loneWord 0x01800000).pipelineEmpty ∧ (loneWord 0x01800000).status = .running ∧ (loneWord 0x01800000).pc.toNat ≤ 65531 ∧
      decode ((loneWord 0x01800000).instrMem.read (loneWord 0x01800000).pc.toNat) = .instr (.halt 0 0 0) ∧
      harmlessInMem ((loneWord 0x01800000).instrMem.read ((loneWord 0x01800000).pc + 1).toNat) = true := by
  refine ⟨?_, rfl, ?_, ?_, ?_⟩
  · unfold State.pipelineEmpty; decide
  all_goals decide
/-- The side conditions of R217 and R221 are met by `beq 0 0 0; halt`, with one sequential step. -/
theorem wit_SequentialHalt :
    SequentialHalt [0x01000000, 0x01800000] 1 ((State.load [0x01000000, 0x01800000]).setPc 1) where
  fits := by decide
  arrives := rfl
  running := rfl
  atHalt := by decide
  indices := by
    intro k hk u hu
    interval_cases k
    · cases hu; decide
    · cases hu; decide
  harmless := by decide
/-- `PlacedInstructionRunsAtTheNextStep`, with an instruction that completes, and one that faults at the last legal `pc`. -/
theorem wit_Placed_next :
    State.reset.status = .running ∧ legalAddress State.reset.pc ∧ State.reset.instrMem.wf = true ∧
      exec (.nor 1 2 0 3) State.reset = .next ((State.reset.writeReg 3 0xFFFFFFFF).setPc 1) :=
  ⟨rfl, by unfold legalAddress; decide, by decide, rfl⟩
def atLastIndex : State := { State.reset with pc := 65535 }
theorem wit_Placed_fault :
    atLastIndex.status = .running ∧ legalAddress atLastIndex.pc ∧ atLastIndex.instrMem.wf = true ∧
      exec (.sw 0 0 0xFFFF) atLastIndex = .fault (.dataOutOfRange 0xFFFFFFFF) :=
  ⟨rfl, by unfold legalAddress; decide, by decide, rfl⟩
theorem wit_Canonical :
    Memory.wf [(4, 21), (9, 1)] = true ∧ Memory.wf (Memory.write [(9, 1)] 4 21) = true ∧
      Memory.write [(9, 1)] 4 21 = [(4, 21), (9, 1)] := by decide

end Sys2Proof.Tests
end

/-! # Proofs of the family 00_scope.md: the immediate, and the invariant of the machine -/

namespace Sys2Proof.Machine

/-! ### What a cycle latches, by field -/

/-- R117: EX/MEM takes the word in EX, or a no-op on a squash. -/
@[simp] theorem nextExmem_instr (s : State) :
    (nextExmem s).instr = if takenBranch s then noopWord else s.idex.instr := by
  unfold nextExmem
  split <;> rfl

/-- R112: the flag compares the forwarded operands, squash or not. -/
@[simp] theorem nextExmem_eq (s : State) : (nextExmem s).eq = equalFlag (operandA s) (operandB s) := by
  unfold nextExmem
  split <;> rfl

/-- R117, R108: ID/EX takes the word in ID, or a no-op on a squash and on a stall. -/
@[simp] theorem nextIdex_instr (s : State) :
    (nextIdex s).instr = if takenBranch s || stall s then noopWord else s.ifid.instr := by
  unfold nextIdex
  split <;> rfl

/-- R106: the immediate is the one of the word in ID, a bubble's included. -/
@[simp] theorem nextIdex_offset (s : State) : (nextIdex s).offset = offset s.ifid.instr := by
  unfold nextIdex
  split <;> rfl

/-! ### What a performed cycle establishes of the invariant -/

/-- A performed cycle stores at legal addresses only (R182), so data memory stays canonical. -/
theorem wf_storeEffect {s : State} (hp : s.performsCycle) (hm : s.dataMem.wf = true) : (storeEffect s).wf = true := by
  obtain ⟨-, -, hfault⟩ := hp
  rw [storeEffect_eq]
  split
  case isTrue hsw =>
    have hlegal := ((faultOf_eq_none_iff s).mp hfault).1 ((accessesData_iff s).mpr (.inr hsw))
    exact Memory.wf_write _ hm ((inRange_iff _).mp hlegal)
  case isFalse => exact hm

/-- R125: a load reaches EX/MEM from ID/EX, and then the stall has kept every reader of its register out of ID/EX. -/
theorem loadUseFree_cycle (s : State) : (cycle s).loadUseFree := by
  intro hlw
  simp only [cycle_exmem, cycle_idex, nextExmem_instr, nextIdex_instr] at hlw ⊢
  cases hb : takenBranch s with
  | true => exact .inl rfl
  | false =>
    cases hs : stall s with
    | true => exact .inl rfl
    | false =>
      have hload : op s.idex.instr = .lw := by simpa [hb] using hlw
      have hreads : ¬ (fieldB s.idex.instr = fieldA s.ifid.instr ∨ fieldB s.idex.instr = fieldB s.ifid.instr) :=
        fun h => by simp [(stall_iff s).mpr ⟨hload, h⟩] at hs
      exact .inr ⟨fun h => hreads (.inl h.symm), fun h => hreads (.inr h.symm)⟩

/-- R106: ID latches the word and its own immediate together, or a no-op. -/
theorem ownImmediate_cycle (s : State) : (cycle s).ownImmediate := by
  unfold State.ownImmediate
  rw [cycle_idex, nextIdex_instr, nextIdex_offset]
  split
  · exact .inl rfl
  · exact .inr rfl

/-- A performed cycle keeps the invariant; only the two memories need it to have held before. -/
theorem inv_cycle {s : State} (hp : s.performsCycle) (hi : s.Inv) : (cycle s).Inv := by
  obtain ⟨himem, hdmem, -, -, -⟩ := hi
  exact ⟨himem, wf_storeEffect hp hdmem, by simpa using equalFlag_bool (operandA s) (operandB s), loadUseFree_cycle s,
    ownImmediate_cycle s⟩

/-- The invariant does not mention the status, so the stop keeps it. -/
theorem inv_stop {s : State} (hi : s.Inv) : s.stop.Inv := hi

/-- Settles O37, by the cases of a step: the halted machine stays as it is, the stop changes the status alone, and a
performed cycle establishes the invariant anew. -/
theorem stepKeepsTheInvariant : Obligations.StepKeepsTheInvariant := by
  intro s t hi h
  rcases step_cases h with ⟨-, rfl⟩ | ⟨-, -, rfl⟩ | ⟨hp, rfl⟩
  · exact hi
  · exact inv_stop hi
  · exact inv_cycle hp hi

end Sys2Proof.Machine

namespace Sys2Proof

/-- Settles O6: sign extension keeps the signed reading, which subtracts 2^16 exactly when bit 15 is set. -/
theorem immediateIsSignExtended : Obligations.ImmediateIsSignExtended := by
  intro v
  have hsigned : (sext16 v).toInt = v.toInt := BitVec.toInt_signExtend_of_le (by decide)
  rw [hsigned, BitVec.toInt_eq_toNat_cond]
  split <;> split <;> omega

end Sys2Proof

/-! # Proofs of the family 10_state.md: the status, the counter, instruction memory, `pc`, register 0, reset -/

namespace Sys2Proof.Machine

/-! ### Terminal statuses -/

theorem clockEdge_of_faulted {s : State} {f : Fault} (h : s.status = .faulted f) : clockEdge s = s := by
  simp [clockEdge, h]

theorem runCycles_of_halted {s : State} (h : s.status = .halted) (k : Nat) : runCycles k s = .next s := by
  induction k with
  | zero => rfl
  | succ k ih => rw [runCycles_succ, step_of_halted h]; exact ih

/-- R183: the fault of the first step ends the run. -/
theorem runCycles_succ_of_faulted {s : State} {f : Fault} (h : s.status = .faulted f) (k : Nat) :
    runCycles (k + 1) s = .fault f := by
  rw [runCycles_succ, step_of_faulted h]

/-- Settles O18: a halted state answers itself, by induction on the number of steps; a faulted one ends a run at its first
step. -/
theorem terminalStatusIsFinal : Obligations.TerminalStatusIsFinal :=
  ⟨fun _ k h => runCycles_of_halted h k, fun _ _ k h => ⟨clockEdge_of_faulted h, runCycles_succ_of_faulted h k⟩⟩

/-! ### When LW and SW complete -/

/-- R151, R182: LW completes exactly at a legal address. -/
theorem exec_lw_eq_next_iff (a b : RegIdx) (imm : BitVec 16) (s t : State) :
    exec (.lw a b imm) s = .next t ↔
      inRange (s.readReg a + sext16 imm) = true ∧
        (s.writeReg b (s.memRead (s.readReg a + sext16 imm))).setPc (nextIndex s.pc) = t := by
  simp only [exec, execLw, aluLw, effectiveAddress]
  by_cases hin : inRange (s.readReg a + sext16 imm) = true <;> simp [hin]

/-- R152, R182: SW completes exactly at a legal address. -/
theorem exec_sw_eq_next_iff (a b : RegIdx) (imm : BitVec 16) (s t : State) :
    exec (.sw a b imm) s = .next t ↔
      inRange (s.readReg a + sext16 imm) = true ∧
        (s.memWrite (s.readReg a + sext16 imm) (s.readReg b)).setPc (nextIndex s.pc) = t := by
  simp only [exec, execSw, aluSw, effectiveAddress]
  by_cases hin : inRange (s.readReg a + sext16 imm) = true <;> simp [hin]

/-! ### `cycles` and instruction memory in `exec` -/

/-- R28, R30: no instruction reads the cycle counter or instruction memory: with both replaced, its next state differs in
these two alone. -/
theorem exec_with_cycles_instrMem {i : Instr} {s t : State} (n : Nat) (m : Memory) (h : exec i s = .next t) :
    exec i { s with cycles := n, instrMem := m } = .next { t with cycles := n, instrMem := m } := by
  cases i with
  | add | nor | beq | jalr | halt | noop => cases h; rfl
  | lw a b imm =>
    obtain ⟨hin, rfl⟩ := (exec_lw_eq_next_iff a b imm s t).mp h
    exact (exec_lw_eq_next_iff a b imm _ _).mpr ⟨hin, rfl⟩
  | sw a b imm =>
    obtain ⟨hin, rfl⟩ := (exec_sw_eq_next_iff a b imm s t).mp h
    exact (exec_sw_eq_next_iff a b imm _ _).mpr ⟨hin, rfl⟩

/-- R28, R30: no instruction changes either: the next state holds whatever they are replaced by, so, replaced by the state's
own values, they are kept. -/
theorem exec_keeps_cycles_instrMem {i : Instr} {s t : State} (h : exec i s = .next t) :
    t.cycles = s.cycles ∧ t.instrMem = s.instrMem := by
  have hsame : exec i s = .next { t with cycles := s.cycles, instrMem := s.instrMem } :=
    exec_with_cycles_instrMem s.cycles s.instrMem h
  have ht : t = { t with cycles := s.cycles, instrMem := s.instrMem } := Host.Outcome.next.inj (h.symm.trans hsame)
  rw [ht]
  exact ⟨rfl, rfl⟩

/-! ### `cycles` in a step -/

/-- R102: only a performed cycle is counted. -/
theorem cycles_of_not_performs {s t : State} (hp : ¬ s.performsCycle) (h : step s = .next t) : t.cycles = s.cycles := by
  rcases step_cases h with ⟨-, rfl⟩ | ⟨-, -, rfl⟩ | ⟨hp', -⟩
  · rfl
  · rfl
  · exact absurd hp' hp

/-- A performed cycle answers the post-cycle state and nothing else. -/
theorem eq_cycle_of_performs {s t : State} (hp : s.performsCycle) (h : step s = .next t) : t = cycle s :=
  Host.Outcome.next.inj (h.symm.trans (step_of_performs hp))

/-- R28: nothing in a step reads the counter, the check of the cycle's start included. -/
theorem step_with_cycles {s t : State} (n : Nat) (h : step s = .next t) :
    step { s with cycles := n } = .next { t with cycles := n + (t.cycles - s.cycles) } := by
  rcases step_cases h with ⟨hs, rfl⟩ | ⟨hr, hh, rfl⟩ | ⟨hp, rfl⟩
  · rw [Nat.sub_self]
    exact step_of_halted hs
  · rw [State.stop_cycles, Nat.sub_self]
    exact step_of_haltCheck hr hh
  · rw [cycle_cycles, Nat.add_sub_cancel_left]
    exact step_of_performs hp

/-- Settles O23: a performed cycle adds one, every other step keeps the counter, and nothing reads it. -/
theorem cyclesCountCompletedCycles : Obligations.CyclesCountCompletedCycles := by
  refine ⟨rfl, fun s t hp h => ?_, fun s t => cycles_of_not_performs, fun s t n => step_with_cycles n,
    fun i s t n h => ?_⟩
  · rw [eq_cycle_of_performs hp h, cycle_cycles]
  · obtain ⟨hcycles, hinstr⟩ := exec_keeps_cycles_instrMem h
    exact ⟨hcycles, hinstr ▸ exec_with_cycles_instrMem n s.instrMem h⟩

/-! ### Instruction memory in a step -/

theorem step_keeps_instrMem {s t : State} (h : step s = .next t) : t.instrMem = s.instrMem := by
  rcases step_cases h with ⟨-, rfl⟩ | ⟨-, -, rfl⟩ | ⟨-, rfl⟩
  · rfl
  · rfl
  · rfl

/-- R104: IF reads instruction memory at `pc` alone, and no other stage reads it. -/
theorem cycle_with_instrMem {s : State} {m : Memory} (hm : m.read s.pc.toNat = s.instrMem.read s.pc.toNat) :
    cycle { s with instrMem := m } = { cycle s with instrMem := m } := by
  have hfetch : fetchStage { s with instrMem := m } = fetchStage s := by
    simp only [fetchStage, State.fetch, hm]
  have hifid : nextIfid { s with instrMem := m } = nextIfid s := by
    unfold nextIfid
    rw [hfetch]
    rfl
  unfold cycle
  rw [hifid]
  rfl

theorem step_with_instrMem {s t : State} {m : Memory} (hm : m.read s.pc.toNat = s.instrMem.read s.pc.toNat)
    (h : step s = .next t) : step { s with instrMem := m } = .next { t with instrMem := m } := by
  rcases step_cases h with ⟨hs, rfl⟩ | ⟨hr, hh, rfl⟩ | ⟨hp, rfl⟩
  · exact step_of_halted hs
  · exact step_of_haltCheck hr hh
  · rw [← cycle_with_instrMem hm]
    exact step_of_performs hp

/-- Settles O24: neither a step nor an instruction writes instruction memory; a step reads it at `pc` alone, an instruction
not at all. -/
theorem instructionMemoryIsNeverWritten : Obligations.InstructionMemoryIsNeverWritten :=
  ⟨fun _ _ => step_keeps_instrMem, fun _ _ _ h => (exec_keeps_cycles_instrMem h).2, fun _ _ _ => step_with_instrMem,
    fun _ s _ m h => (exec_keeps_cycles_instrMem h).1 ▸ exec_with_cycles_instrMem s.cycles m h⟩

/-! ### The flow of `pc` -/

/-- Settles O35, by the priority of R121: the redirect, then the hold, then the next index. -/
theorem onlyTakenBranchesRedirect : Obligations.OnlyTakenBranchesRedirect := by
  intro s t hp h
  rw [eq_cycle_of_performs hp h, cycle_pc, ← takenBranch_iff, ← and_assoc, ← takenBranch_iff]
  unfold nextPc
  cases takenBranch s with
  | true => exact .inl ⟨rfl, rfl⟩
  | false =>
    cases stall s with
    | true => exact .inr (.inl ⟨Bool.false_ne_true, rfl, rfl⟩)
    | false => exact .inr (.inr ⟨Bool.false_ne_true, rfl, rfl⟩)

/-! ### Register 0 -/

theorem readReg_writeReg_same (s : State) (r : RegIdx) (v : Word) : (s.writeReg r v).readReg r = v := by
  rw [State.readReg_writeReg, if_pos rfl]

/-- Settles O16: each way to write a register is a `writeReg` or the WB stage, and neither treats register 0 apart. -/
theorem registerZeroIsOrdinary : Obligations.RegisterZeroIsOrdinary := by
  refine ⟨readReg_writeReg_same, fun a b u s => ⟨_, rfl, readReg_writeReg_same ..⟩,
    fun a b u s => ⟨_, rfl, readReg_writeReg_same ..⟩, fun a imm s hlegal => ?_, fun s t hp h hd => ?_⟩
  · have hin := (legalAddress_iff_inRange _).mp hlegal
    exact ⟨_, (exec_lw_eq_next_iff a 0 imm s _).mpr ⟨hin, rfl⟩, readReg_writeReg_same ..⟩
  · rw [eq_cycle_of_performs hp h, State.readReg, cycle_reg, readFile_writeBack, if_pos hd]

/-! ### Reset and load -/

/-- R42, R201: the loaded memories are canonical, the flag is 0, and every slot holds the no-op word. -/
theorem inv_load {image : List Word} (h : image.length ≤ Config.numMemory) : (State.load image).Inv := by
  have hwf : (Memory.ofWords 0 image).wf = true := Memory.wfFrom_ofWords image 0 (by omega)
  exact ⟨hwf, hwf, .inl rfl, fun _ => .inl rfl, .inl rfl⟩

/-- Settles O38; reset is the load of the empty image. -/
theorem resetAndLoadMeetTheInvariant : Obligations.ResetAndLoadMeetTheInvariant :=
  ⟨inv_load (image := []) (Nat.zero_le _), fun _ => inv_load⟩

/-- Settles O48: every register of the file reads 0, an empty memory reads 0 everywhere, and the rest is as written. -/
theorem resetState : Obligations.ResetState :=
  ⟨rfl, readFile_reset, fun _ => rfl, fun _ => rfl, rfl, rfl, rfl, rfl, rfl, rfl, rfl⟩

end Sys2Proof.Machine

/-! # Proofs of the family 20_memory.md: a canonical memory is determined by what it reads -/

namespace Sys2Proof.Machine

theorem Memory.read_cons_same (a : Nat) (v : Word) (m : Memory) : Memory.read ((a, v) :: m) a = v := by
  rw [Memory.read, if_pos rfl]

/-- The first listed index of a canonical memory is the least one that reads unlike an unlisted word. -/
theorem Memory.head_le_of_read_ne {lo a b : Nat} {v : Word} {m : Memory}
    (hm : Memory.wfFrom lo ((a, v) :: m) = true) (hb : Memory.read ((a, v) :: m) b ≠ Memory.unlisted) : a ≤ b := by
  obtain ⟨-, hrest⟩ := Memory.wfFrom_cons.mp hm
  by_contra hlt
  exact hb (Memory.read_below (Memory.wfFrom_cons.mpr ⟨le_refl a, hrest⟩) (by omega))

/-- The reads of the whole list give those of its tail. -/
theorem Memory.read_tail {a : Nat} (v : Word) {m : Memory} (hm : Memory.wfFrom (a + 1) m = true) (x : Nat) :
    m.read x = if x = a then Memory.unlisted else Memory.read ((a, v) :: m) x := by
  split
  · exact Memory.read_below hm (by omega)
  · rw [Memory.read, if_neg ‹_›]

/-- By induction on the list: alike reads give the same least listed index, the same word there, and tails that read alike. -/
theorem Memory.eq_of_read_eq_from {lo : Nat} {m q : Memory} (hm : Memory.wfFrom lo m = true)
    (hq : Memory.wfFrom lo q = true) (h : ∀ a, m.read a = q.read a) : m = q := by
  induction m generalizing lo q with
  | nil =>
    cases q with
    | nil => rfl
    | cons d q =>
      obtain ⟨b, u⟩ := d
      obtain ⟨-, -, hu, -⟩ := Memory.wfFrom_cons.mp hq
      exact absurd ((h b).trans (Memory.read_cons_same b u q)).symm hu
  | cons c m ih =>
    obtain ⟨a, v⟩ := c
    obtain ⟨-, -, hv, hmtail⟩ := Memory.wfFrom_cons.mp hm
    cases q with
    | nil => exact absurd ((Memory.read_cons_same a v m).symm.trans (h a)) hv
    | cons d q =>
      obtain ⟨b, u⟩ := d
      obtain ⟨-, -, hu, hqtail⟩ := Memory.wfFrom_cons.mp hq
      have hab : a ≤ b := Memory.head_le_of_read_ne hm (by rwa [h b, Memory.read_cons_same])
      have hba : b ≤ a := Memory.head_le_of_read_ne hq (by rwa [← h a, Memory.read_cons_same])
      obtain rfl := le_antisymm hab hba
      have hvu : v = u := by rw [← Memory.read_cons_same a v m, h a, Memory.read_cons_same]
      have htail : m = q := ih hmtail hqtail fun x => by
        rw [Memory.read_tail v hmtail, Memory.read_tail u hqtail, h x]
      rw [hvu, htail]

/-- Settles O51: the canonical form of a memory is the one from index 0 on. -/
theorem canonicalMemoriesAreDeterminedByTheirReads : Obligations.CanonicalMemoriesAreDeterminedByTheirReads :=
  fun _ _ hm hq h => Memory.eq_of_read_eq_from hm hq h

end Sys2Proof.Machine

/-! # Proofs of the family 30_encoding.md: decoder and encoder are inverse, and the selector decides the class -/

namespace Sys2Proof

/-! ### Decoding an encoding -/

/-- R78: the encoding of an instruction has its class. -/
theorem op_encode (i : Instr) : op (encode i) = i.opClass := by
  cases i with
  | add | nor | lw | sw | beq | jalr | halt | noop => exact op_assemble ..

/-- Settles O1: the encoding has the instruction's class, and the fields read for that class are the operands. -/
theorem decodeOfEncodeIsIdentity : Obligations.DecodeOfEncodeIsIdentity := by
  intro i
  rw [decode, op_encode]
  cases i with
  | add | nor =>
    simp only [Instr.opClass, encode, fieldA_assemble, fieldB_assemble, unusedBits_assemble_lowOfC,
      fieldC_assemble_lowOfC]
  | lw | sw | beq | jalr | halt | noop =>
    simp only [Instr.opClass, encode, fieldA_assemble, fieldB_assemble, imm16_assemble]

/-! ### Encoding what was decoded -/

section
variable {w : Word} {c : OpClass} {o : BitVec 10}

/-- R79: a word of a class of the table is assembled from the selector of that class and its own fields. -/
theorem assemble_of_op (h : op w = c) (hc : selectorOf c = some o) :
    assemble o (fieldA w) (fieldB w) (imm16 w) = w := by
  rw [← opcode_of_op h hc, assemble_fields]

/-- R79, the rows with a field C: their low half is the ignored bits above field C. -/
theorem assemble_lowOfC_of_op (h : op w = c) (hc : selectorOf c = some o) :
    assemble o (fieldA w) (fieldB w) (lowOfC (unusedBits w) (fieldC w)) = w := by
  rw [lowOfC_fields, assemble_of_op h hc]

end

/-- Settles O2, by the class of the word: the instruction read from it holds every bit below its selector. -/
theorem encodeOfDecodeIsTheWord : Obligations.EncodeOfDecodeIsTheWord := by
  intro w i h
  unfold decode at h
  cases hop : op w <;> rw [hop] at h <;> cases h
  case add | nor => exact assemble_lowOfC_of_op hop rfl
  case lw | sw | beq | jalr | halt | noop => exact assemble_of_op hop rfl

/-! ### The selector and the class -/

section
variable {c : OpClass} {o : BitVec 10}

/-- R78: a word is of a class of the table exactly when its selector is that class's. -/
theorem op_eq_iff_opcode_eq (w : Word) (hc : selectorOf c = some o) : op w = c ↔ opcode w = o := by
  refine ⟨fun h => opcode_of_op h hc, fun h => ?_⟩
  unfold op
  rw [h]
  cases c <;> cases hc <;> rfl

/-- R79: the mask keeps the selector and clears every other field. -/
theorem and_opcodeMask (w : Word) : w &&& 0xFFC00000 = assemble (opcode w) 0 0 0 := by
  rw [assemble_eq_append]
  apply BitVec.eq_of_getLsbD_eq
  intro i hi
  simp only [BitVec.getLsbD_and, opcode, opcodePos, BitVec.getLsbD_extractLsb', BitVec.getLsbD_append]
  interval_cases i <;> simp

/-- R79: a row's match value is its selector with every other field zero. -/
theorem op_eq_iff_mask (w : Word) (hc : selectorOf c = some o) :
    op w = c ↔ w &&& 0xFFC00000 = assemble o 0 0 0 := by
  rw [op_eq_iff_opcode_eq w hc, and_opcodeMask]
  refine ⟨fun h => by rw [h], fun h => ?_⟩
  simpa using congrArg opcode h

end

/-- Settles O4: each printed match value is the selector of its row with every other field zero. -/
theorem opcodeTableMasksAndMatches : Obligations.OpcodeTableMasksAndMatches := fun w =>
  ⟨op_eq_iff_mask w (o := opcAdd) rfl, op_eq_iff_mask w (o := opcNor) rfl, op_eq_iff_mask w (o := opcLw) rfl,
    op_eq_iff_mask w (o := opcSw) rfl, op_eq_iff_mask w (o := opcBeq) rfl, op_eq_iff_mask w (o := opcJalr) rfl,
    op_eq_iff_mask w (o := opcHalt) rfl, op_eq_iff_mask w (o := opcNoop) rfl⟩

/-! ### The rejected words -/

/-- R83: the decoder rejects exactly the words of no class of the table, and answers their selector. -/
theorem decode_eq_unsupported_iff (w : Word) (sel : BitVec 10) :
    decode w = .unsupported sel ↔ sel = opcode w ∧ op w = .unsupported := by
  unfold decode
  cases op w <;> simp [eq_comm]

/-- R78: the eight selectors of the table are the numbers below 8. -/
theorem op_eq_unsupported_iff (w : Word) : op w = .unsupported ↔ 8 ≤ (opcode w).toNat := by
  simp only [op, opcAdd, opcNor, opcLw, opcSw, opcBeq, opcJalr, opcHalt, opcNoop]
  split_ifs <;> simp only [false_iff, true_iff] <;> bv_omega

/-- R72: the selector is the word divided by 2^22. -/
theorem opcode_toNat (w : Word) : (opcode w).toNat = w.toNat / 2 ^ 22 := by
  have hsmall : w.toNat / 2 ^ 22 < 2 ^ 10 := by omega
  rw [opcode, BitVec.extractLsb'_toNat, Nat.shiftRight_eq_div_pow]
  exact Nat.mod_eq_of_lt hsmall

/-- Settles O3: a selector of 8 or more is a word of 8 * 2^22 = 2^25 or more. -/
theorem decoderRejectsExactlyUnsupportedWords : Obligations.DecoderRejectsExactlyUnsupportedWords := by
  intro w sel
  have hbound : 8 ≤ w.toNat / 2 ^ 22 ↔ 33554432 ≤ w.toNat := by omega
  rw [decode_eq_unsupported_iff, op_eq_unsupported_iff, opcode_toNat, hbound]

/-! ### The printed words -/

/-- Settles O5: nine of the words are the encodings of the instructions printed beside them, and the tenth is above 2^25. -/
theorem specWordsDecode : Obligations.SpecWordsDecode :=
  ⟨decodeOfEncodeIsIdentity (.add 1 2 0 3), decodeOfEncodeIsIdentity (.add 1 2 511 3),
    decodeOfEncodeIsIdentity (.nor 1 2 0 3), decodeOfEncodeIsIdentity (.lw 0 0 0xFFFF),
    decodeOfEncodeIsIdentity (.sw 7 7 0x8000), decodeOfEncodeIsIdentity (.beq 0 1 1),
    decodeOfEncodeIsIdentity (.jalr 4 7 0), decodeOfEncodeIsIdentity (.halt 0 0 0),
    decodeOfEncodeIsIdentity (.noop 0 0 0),
    (decoderRejectsExactlyUnsupportedWords 0xFFFFFFFF 1023).mpr (by decide)⟩

end Sys2Proof

/-! # Proofs of the family 40_pipeline.md: the five stages, the don't-care fields, an instruction through the pipeline -/

namespace Sys2Proof.Machine

/-! ### The commit, by the priority of R121 -/

section
variable {s : State}

theorem nextPc_of_taken (ht : takenBranch s = true) : nextPc s = s.exmem.branchTarget := by
  simp [nextPc, ht]

theorem nextPc_of_stall (ht : takenBranch s = false) (hs : stall s = true) : nextPc s = s.pc := by
  simp [nextPc, ht, hs]

theorem nextPc_of_advance (ht : takenBranch s = false) (hs : stall s = false) : nextPc s = nextIndex s.pc := by
  simp [nextPc, ht, hs]

/-- R117, R108, R104: IF/ID takes a no-op on a squash, keeps its word on a stall, and else takes the fetched word. -/
@[simp] theorem nextIfid_instr (s : State) :
    (nextIfid s).instr = if takenBranch s then noopWord else if stall s then s.ifid.instr else s.fetch s.pc := by
  unfold nextIfid fetchStage
  cases takenBranch s <;> cases stall s <;> rfl

theorem nextIfid_of_stall (ht : takenBranch s = false) (hs : stall s = true) : nextIfid s = s.ifid := by
  simp [nextIfid, ht, hs]

theorem nextIfid_of_advance (ht : takenBranch s = false) (hs : stall s = false) : nextIfid s = fetchStage s := by
  simp [nextIfid, ht, hs]

theorem nextIdex_of_advance (ht : takenBranch s = false) (hs : stall s = false) : nextIdex s = decodeStage s := by
  simp [nextIdex, ht, hs]

@[simp] theorem nextIdex_readRegA (s : State) : (nextIdex s).readRegA = s.readReg (fieldA s.ifid.instr) := by
  unfold nextIdex
  split <;> rfl

@[simp] theorem nextIdex_readRegB (s : State) : (nextIdex s).readRegB = s.readReg (fieldB s.ifid.instr) := by
  unfold nextIdex
  split <;> rfl

@[simp] theorem nextExmem_branchTarget (s : State) :
    (nextExmem s).branchTarget = branchTarget s.idex.pcPlus1 s.idex.offset := by
  unfold nextExmem
  split <;> rfl

@[simp] theorem nextExmem_aluResult (s : State) :
    (nextExmem s).aluResult = alu (op s.idex.instr) (operandA s) (operandB s) s.idex.offset := by
  unfold nextExmem
  split <;> rfl

@[simp] theorem nextExmem_readRegB (s : State) : (nextExmem s).readRegB = operandB s := by
  unfold nextExmem
  split <;> rfl

/-- A word of another class than NOOP in EX/MEM is the word that was in ID/EX, not a bubble. -/
theorem op_idex_of_op_nextExmem {l : List OpClass} (hl : OpClass.noop ∉ l) (h : op (nextExmem s).instr ∈ l) :
    op s.idex.instr ∈ l := by
  rw [nextExmem_instr] at h
  split at h
  · exact absurd (op_noopWord ▸ h) hl
  · exact h

theorem nextExmem_of_not_taken (ht : takenBranch s = false) : nextExmem s = executeStage s := by
  simp [nextExmem, ht]

end

/-! ### Agreement on what means something (R40, R126) -/

/-- R111: the words that write a register are those of ADD, NOR and LW. -/
theorem op_mem_of_destReg {w : Word} {r : RegIdx} (h : destReg w = some r) : op w ∈ [.add, .nor, .lw] := by
  unfold destReg at h
  cases ho : op w <;> simp [ho] at h ⊢

namespace State.Agree

variable {s t : State} (h : s.Agree t)
include h

/-! The start of a cycle, and what decides its commit -/

theorem haltCheck_eq : haltCheck s = haltCheck t := by
  unfold haltCheck
  rw [h.wbendInstr]

theorem accessesData_eq : accessesData s = accessesData t := by
  unfold accessesData
  rw [h.exmemInstr]

/-- R40: the address of an access means something. -/
theorem faultOf_eq : faultOf s = faultOf t := by
  unfold faultOf
  rw [← h.accessesData_eq, ← h.pc]
  cases ha : accessesData s with
  | false => rfl
  | true =>
    have hmem : op s.exmem.instr ∈ [.add, .nor, .lw, .sw] := by
      rcases (accessesData_iff s).mp ha with hop | hop <;> simp [hop]
    rw [h.exmemAluResult hmem]

theorem performsCycle (hp : s.performsCycle) : t.performsCycle := by
  obtain ⟨hrun, hhalt, hfault⟩ := hp
  exact ⟨h.status ▸ hrun, h.haltCheck_eq ▸ hhalt, h.faultOf_eq ▸ hfault⟩

/-- R40: the flag of a BEQ means something. -/
theorem takenBranch_eq : takenBranch s = takenBranch t := by
  rw [Bool.eq_iff_iff, takenBranch_iff, takenBranch_iff, ← h.exmemInstr]
  exact and_congr_right fun hop => by rw [h.exmemEq (by simp [hop])]

theorem stall_eq : stall s = stall t := by
  unfold stall
  rw [h.idexInstr, h.ifidInstr]

theorem fetch_eq (a : Word) : s.fetch a = t.fetch a := by
  unfold State.fetch
  rw [h.instrMem]

theorem readReg_eq (r : RegIdx) : s.readReg r = t.readReg r := by
  unfold State.readReg
  rw [h.reg]

theorem nextPc_eq : nextPc s = nextPc t := by
  unfold nextPc
  rw [← h.takenBranch_eq, ← h.stall_eq, ← h.pc]
  cases ht : takenBranch s with
  | false => rfl
  | true =>
    obtain ⟨hbeq, -⟩ := (takenBranch_iff s).mp ht
    simp [h.exmemBranchTarget (by simp [hbeq])]

/-! The values a stage reads, where its word uses them -/

/-- R110: every producer that supplies a register supplies a value that means something. -/
theorem forwarded_eq (r : RegIdx) {x y : Word} (hxy : x = y) : forwarded s r x = forwarded t r y := by
  rw [Machine.forwarded_eq, Machine.forwarded_eq, ← h.exmemInstr, ← h.memwbInstr, ← h.wbendInstr, hxy]
  split
  case isTrue hd => exact h.exmemAluResult (List.mem_append_left [OpClass.sw] (op_mem_of_destReg hd))
  case isFalse =>
    split
    case isTrue hd => exact h.memwbWriteData (op_mem_of_destReg hd)
    case isFalse =>
      split
      case isTrue hd => exact h.wbendWriteData (op_mem_of_destReg hd)
      case isFalse => rfl

theorem operandA_eq (hop : op s.idex.instr ∈ [.add, .nor, .lw, .sw, .beq]) : operandA s = operandA t := by
  unfold operandA
  rw [← h.idexInstr]
  exact h.forwarded_eq _ (h.idexReadRegA hop)

theorem operandB_eq (hop : op s.idex.instr ∈ [.add, .nor, .sw, .beq]) : operandB s = operandB t := by
  unfold operandB
  rw [← h.idexInstr]
  exact h.forwarded_eq _ (h.idexReadRegB hop)

theorem aluResult_eq (hop : op s.idex.instr ∈ [.add, .nor, .lw, .sw]) :
    alu (op s.idex.instr) (operandA s) (operandB s) s.idex.offset =
      alu (op t.idex.instr) (operandA t) (operandB t) t.idex.offset := by
  rw [← h.idexInstr]
  have hA := h.operandA_eq (List.mem_append_left [OpClass.beq] hop)
  cases hc : op s.idex.instr with
  | add | nor =>
    have hB := h.operandB_eq (by simp [hc])
    simp only [alu, hA, hB]
  | lw | sw =>
    have hoff := h.idexOffset (by simp [hc])
    simp only [alu, hA, hoff]
  | beq | jalr | halt | noop | unsupported => simp [hc] at hop

theorem writeDataOf_eq (hop : op s.exmem.instr ∈ [.add, .nor, .lw]) : writeDataOf s = writeDataOf t := by
  have hx := h.exmemAluResult (List.mem_append_left [OpClass.sw] hop)
  rw [Machine.writeDataOf_eq, Machine.writeDataOf_eq, ← h.exmemInstr, ← h.dataMem, hx]

theorem storeEffect_eq : storeEffect s = storeEffect t := by
  rw [Machine.storeEffect_eq, Machine.storeEffect_eq, ← h.exmemInstr, ← h.dataMem]
  split
  case isTrue hsw => rw [h.exmemAluResult (by simp [hsw]), h.exmemReadRegB (by simp [hsw])]
  case isFalse => rfl

theorem writeBack_eq : writeBack s = writeBack t := by
  apply reg_ext
  intro i
  rw [readFile_writeBack, readFile_writeBack, ← h.memwbInstr, h.readReg_eq]
  split
  case isTrue hd => exact h.memwbWriteData (op_mem_of_destReg hd)
  case isFalse => rfl

/-! What the stages latch -/

theorem nextIfid_instr_eq : (nextIfid s).instr = (nextIfid t).instr := by
  rw [nextIfid_instr, nextIfid_instr, ← h.takenBranch_eq, ← h.stall_eq, h.ifidInstr, h.fetch_eq, h.pc]

/-- A squashed word is a no-op, whose index means nothing; any other keeps its own index, or the fetched one. -/
theorem nextIfid_pcPlus1_eq (hop : op (nextIfid s).instr ∈ [.beq]) :
    (nextIfid s).pcPlus1 = (nextIfid t).pcPlus1 := by
  have ht := h.takenBranch_eq
  have hs := h.stall_eq
  cases hts : takenBranch s with
  | true => simp [hts] at hop
  | false =>
    cases hss : stall s with
    | true =>
      rw [nextIfid_of_stall hts hss] at hop ⊢
      rw [nextIfid_of_stall (ht ▸ hts) (hs ▸ hss)]
      exact h.ifidPcPlus1 hop
    | false =>
      rw [nextIfid_of_advance hts hss, nextIfid_of_advance (ht ▸ hts) (hs ▸ hss)]
      exact congrArg nextIndex h.pc

theorem nextIdex_instr_eq : (nextIdex s).instr = (nextIdex t).instr := by
  rw [nextIdex_instr, nextIdex_instr, ← h.takenBranch_eq, ← h.stall_eq, h.ifidInstr]

/-- ID computes from the word and the registers for every word (R106), so its fields differ in the index at most, and that one
agrees for a BEQ that is not replaced by a bubble. -/
theorem nextIdex_pcPlus1_eq (hop : op (nextIdex s).instr ∈ [.beq]) :
    (nextIdex s).pcPlus1 = (nextIdex t).pcPlus1 := by
  have ht := h.takenBranch_eq
  have hs := h.stall_eq
  cases hts : takenBranch s with
  | true => simp [hts] at hop
  | false =>
    cases hss : stall s with
    | true => simp [hss] at hop
    | false =>
      rw [nextIdex_of_advance hts hss] at hop ⊢
      rw [nextIdex_of_advance (ht ▸ hts) (hs ▸ hss)]
      exact h.ifidPcPlus1 hop

/-- R40, R126: a performed cycle keeps the agreement. -/
theorem cycle : (cycle s).Agree (cycle t) where
  pc := h.nextPc_eq
  reg := h.writeBack_eq
  instrMem := h.instrMem
  dataMem := h.storeEffect_eq
  cycles := congrArg (· + 1) h.cycles
  status := h.status
  ifidInstr := h.nextIfid_instr_eq
  idexInstr := h.nextIdex_instr_eq
  exmemInstr := by
    simp only [cycle_exmem, nextExmem_instr]
    rw [← h.takenBranch_eq, h.idexInstr]
  memwbInstr := h.exmemInstr
  wbendInstr := h.memwbInstr
  ifidPcPlus1 := h.nextIfid_pcPlus1_eq
  idexPcPlus1 := h.nextIdex_pcPlus1_eq
  idexReadRegA _ := by simp only [cycle_idex, nextIdex_readRegA, h.ifidInstr, h.readReg_eq]
  idexReadRegB _ := by simp only [cycle_idex, nextIdex_readRegB, h.ifidInstr, h.readReg_eq]
  idexOffset _ := by simp only [cycle_idex, nextIdex_offset, h.ifidInstr]
  exmemBranchTarget hop := by
    have hidex := op_idex_of_op_nextExmem (by decide) hop
    have hoff := h.idexOffset (List.mem_append_right [OpClass.lw, .sw] hidex)
    simp only [cycle_exmem, nextExmem_branchTarget, h.idexPcPlus1 hidex, hoff]
  exmemEq hop := by
    have hidex := op_idex_of_op_nextExmem (by decide) hop
    have hA := h.operandA_eq (List.mem_append_right [OpClass.add, .nor, .lw, .sw] hidex)
    have hB := h.operandB_eq (List.mem_append_right [OpClass.add, .nor, .sw] hidex)
    simp only [cycle_exmem, nextExmem_eq, hA, hB]
  exmemAluResult hop := by
    have hidex := op_idex_of_op_nextExmem (by decide) hop
    simpa only [cycle_exmem, nextExmem_aluResult] using h.aluResult_eq hidex
  exmemReadRegB hop := by
    have hidex := op_idex_of_op_nextExmem (by decide) hop
    simpa only [cycle_exmem, nextExmem_readRegB] using
      h.operandB_eq (List.mem_append_left [OpClass.beq] (List.mem_append_right [OpClass.add, .nor] hidex))
  memwbWriteData := h.writeDataOf_eq
  wbendWriteData := h.memwbWriteData

/-- The agreement survives the stop, which changes the status of both alike (R101). -/
theorem stop : s.stop.Agree t.stop := { h with status := rfl }

end State.Agree

/-- Settles O40, by the cases of a step: agreeing states pass the halt check and the fault check alike, and a stop and a cycle
keep the agreement. -/
theorem nonInterferenceOfDontCares : Obligations.NonInterferenceOfDontCares := by
  intro s t hrun h
  have hrunt : t.status = .running := h.status ▸ hrun
  rcases step_trichotomy s with ⟨hs, -⟩ | ⟨-, hh, he⟩ | ⟨hp, he⟩ | ⟨f, he, hf⟩
  · simp [hrun] at hs
  · refine ⟨fun s' hs' => ?_, fun f hf => by simp [he] at hf⟩
    cases he.symm.trans hs'
    exact ⟨t.stop, step_of_haltCheck hrunt (h.haltCheck_eq ▸ hh), h.stop⟩
  · refine ⟨fun s' hs' => ?_, fun f hf => by simp [he] at hf⟩
    cases he.symm.trans hs'
    exact ⟨cycle t, step_of_performs (h.performsCycle hp), h.cycle⟩
  · refine ⟨fun s' hs' => by simp [he] at hs', fun g hg => ?_⟩
    cases he.symm.trans hg
    rcases hf with hf | ⟨-, hh, hf⟩
    · simp [hrun] at hf
    · exact step_of_faultOf hrunt (h.haltCheck_eq ▸ hh) (h.faultOf_eq ▸ hf)

/-! ### The start of a cycle -/

/-- Settles O17: the halt check stops the machine, which then stays as it is; with no HALT there, a step that answers a state
is a performed cycle, which keeps the status. -/
theorem haltCheckStopsTheMachine : Obligations.HaltCheckStopsTheMachine := by
  refine ⟨fun s hrun hop => ⟨?_, fun k => runCycles_of_halted rfl k⟩, fun s t hrun hop h => ?_⟩
  · exact step_of_haltCheck hrun (by simp [haltCheck, hop])
  · rcases step_cases h with ⟨hs, -⟩ | ⟨-, hh, -⟩ | ⟨-, rfl⟩
    · simp [hrun] at hs
    · simp [haltCheck, hop] at hh
    · exact hrun

/-- R100, R102: a running machine performs its cycle when nothing stops it and both addresses in use are in range. -/
theorem performsCycle_of_inRange {s : State} (hrun : s.status = .running) (hhalt : op s.wbend.instr ≠ .halt)
    (hdata : op s.exmem.instr = .lw ∨ op s.exmem.instr = .sw → inRange s.exmem.aluResult = true)
    (hpc : inRange s.pc = true) : s.performsCycle :=
  ⟨hrun, by simp [haltCheck, hhalt], (faultOf_eq_none_iff s).mpr ⟨fun ha => hdata ((accessesData_iff s).mp ha), hpc⟩⟩

/-- Settles O22: the cycle is performed, and a cycle counts itself and keeps the status and instruction memory. -/
theorem cycleCompletesWhenInRange : Obligations.CycleCompletesWhenInRange := by
  intro s hrun hhalt hdata hpc
  simp only [legalAddress_iff_inRange] at hdata hpc
  exact ⟨cycle s, step_of_performs (performsCycle_of_inRange hrun hhalt hdata hpc), hrun, rfl, rfl⟩

/-! ### IF and ID -/

/-- Settles O25, by what the commit takes with no stall and no taken branch. -/
theorem fetchAndDecodeMoveOn : Obligations.FetchAndDecodeMoveOn := by
  intro s hp hs ht
  exact ⟨cycle s, step_of_performs hp, nextPc_of_advance ht hs, nextIfid_of_advance ht hs, nextIdex_of_advance ht hs,
    by simp [ht]⟩

/-- Settles O26, by what the commit takes on a stall. -/
theorem stallHoldsFetchAndInsertsABubble : Obligations.StallHoldsFetchAndInsertsABubble := by
  intro s hp ht hlw hfields
  have hs : stall s = true := (stall_iff s).mpr ⟨hlw, hfields⟩
  exact ⟨cycle s, step_of_performs hp, nextPc_of_stall ht hs, nextIfid_of_stall ht hs, by simp [hs], by simp [ht]⟩

/-- Settles O27: behind a stall ID/EX holds the no-op word, which is no load. -/
theorem noTwoStallsInARow : Obligations.NoTwoStallsInARow := by
  intro s t hp hs h
  have hbubble : (cycle s).idex.instr = noopWord := by simp [hs]
  rw [eq_cycle_of_performs hp h, ← Bool.not_eq_true, stall_iff, hbubble]
  simp

/-! ### EX -/

/-- Settles O28: the network of each operand. -/
theorem forwardingTakesTheNearestProducer : Obligations.ForwardingTakesTheNearestProducer :=
  fun s => ⟨forwarded_eq s _ _, forwarded_eq s _ _⟩

theorem equalFlag_eq_ite (a b : Word) : equalFlag a b = if a = b then 1 else 0 := by
  split
  case isTrue hab => exact (equalFlag_eq_one_iff a b).mpr hab
  case isFalse hab => exact (equalFlag_bool a b).resolve_right fun h => hab ((equalFlag_eq_one_iff a b).mp h)

/-- Settles O29: with no taken branch EX/MEM takes what EX computes, its result by the class of the word. -/
theorem executeLatchesTheResult : Obligations.ExecuteLatchesTheResult := by
  intro s hp ht
  refine ⟨cycle s, step_of_performs hp, by simp [ht], nextExmem_readRegB s, nextExmem_branchTarget s,
    (nextExmem_eq s).trans (equalFlag_eq_ite _ _), ?_⟩
  rw [cycle_exmem, nextExmem_aluResult]
  refine ⟨fun hop => ?_, fun hop => ?_, fun hop => ?_, fun hop => ?_, fun hop => ?_⟩
  · rw [hop]; rfl
  · rw [hop]; rfl
  · rcases hop with hop | hop <;> (rw [hop]; rfl)
  · rw [hop]; rfl
  · rcases hop with hop | hop | hop | hop <;> (rw [hop]; rfl)

/-- R110: the value EX/MEM supplies matters only to the register its word writes. -/
theorem forwarded_with_aluResult {s : State} {r : RegIdx} (x v : Word) (hd : destReg s.exmem.instr ≠ some r) :
    forwarded { s with exmem := { s.exmem with aluResult := x } } r v = forwarded s r v := by
  rw [forwarded_eq, forwarded_eq, if_neg hd, if_neg hd]

/-- Settles O39: by the invariant neither field of the word in EX names the register of the load. -/
theorem loadAddressIsNeverForwarded : Obligations.LoadAddressIsNeverForwarded := by
  intro s x hi hlw hreal
  obtain ⟨-, -, -, hfree, -⟩ := hi
  obtain ⟨hA, hB⟩ := (hfree hlw).resolve_left hreal
  have hdest : destReg s.exmem.instr = some (fieldB s.exmem.instr) := by simp [destReg, hlw]
  exact ⟨forwarded_with_aluResult x _ (by simpa [hdest] using Ne.symm hA),
    forwarded_with_aluResult x _ (by simpa [hdest] using Ne.symm hB)⟩

/-! ### MEM -/

/-- Settles O30: the write data and the store, by the class of the word. -/
theorem memoryStageLoadsAndStores : Obligations.MemoryStageLoadsAndStores := by
  intro s hp hwf
  have hdata : (cycle s).memwb.writeData = writeDataOf s := rfl
  refine ⟨cycle s, step_of_performs hp, rfl, ?_⟩
  rw [hdata, writeDataOf_eq, cycle_dataMem, storeEffect_eq]
  refine ⟨fun hlw => if_pos hlw, fun hidle => ?_, fun hlw hnoop hhalt => ?_, fun hsw a => ?_, fun hsw => if_neg hsw⟩
  · rw [if_neg (by rcases hidle with h | h <;> simp [h]), if_pos hidle]
  · rw [if_neg hlw, if_neg (not_or.mpr ⟨hnoop, hhalt⟩)]
  · rw [if_pos hsw, Memory.read_write _ _ hwf]

/-- R116: no class but SW stores. -/
theorem storeEffect_of_not_sw {s : State} (h : op s.exmem.instr ≠ .sw) : storeEffect s = s.dataMem := by
  rw [storeEffect_eq, if_neg h]

/-- Settles O32: the taken branch decides every commit, whatever the stall condition says. -/
theorem takenBranchRedirectsAndSquashes : Obligations.TakenBranchRedirectsAndSquashes := by
  intro s hp hbeq heq
  have ht : takenBranch s = true := (takenBranch_iff s).mpr ⟨hbeq, heq⟩
  exact ⟨cycle s, step_of_performs hp, nextPc_of_taken ht, by simp [ht], by simp [ht], by simp [ht], rfl, rfl,
    storeEffect_of_not_sw (by simp [hbeq])⟩

/-- R124: behind a taken branch the next state agrees whatever IF/ID and ID/EX held: three no-ops take their place, whose
scratch fields mean nothing. -/
theorem agree_cycle_of_taken {s : State} (x : IfId) (y : IdEx) (ht : takenBranch s = true) :
    (cycle s).Agree (cycle { s with ifid := x, idex := y }) := by
  have htu : takenBranch { s with ifid := x, idex := y } = true := ht
  constructor
  case pc => exact (nextPc_of_taken ht).trans (nextPc_of_taken htu).symm
  case reg | instrMem | dataMem | cycles | status | memwbInstr | wbendInstr => rfl
  case memwbWriteData | wbendWriteData => exact fun _ => rfl
  case ifidInstr | idexInstr | exmemInstr => simp [ht, htu]
  all_goals simp [ht]

/-- Settles O34: both cycles are performed, since the checks at the start do not read IF/ID and ID/EX. -/
theorem squashedWordsHaveNoEffect : Obligations.SquashedWordsHaveNoEffect := by
  intro s x y hp hbeq heq
  have hpu : State.performsCycle { s with ifid := x, idex := y } := hp
  exact ⟨cycle s, _, step_of_performs hp, step_of_performs hpu,
    agree_cycle_of_taken x y ((takenBranch_iff s).mpr ⟨hbeq, heq⟩)⟩

/-! ### WB -/

/-- R118: a cycle writes the destination register of the word in WB and no other. -/
theorem cycle_writes_destReg {s : State} {c : RegIdx} (hd : destReg s.memwb.instr = some c) :
    (cycle s).readReg c = s.memwb.writeData ∧ s.sameRegsBut (cycle s) c := by
  have hread (r : RegIdx) : (cycle s).readReg r = if c = r then s.memwb.writeData else s.readReg r := by
    rw [State.readReg, cycle_reg, readFile_writeBack, hd]
    simp only [Option.some.injEq]
  exact ⟨(hread c).trans (if_pos rfl), fun r hr => (hread r).trans (if_neg (Ne.symm hr))⟩

theorem writeBack_of_no_destReg {s : State} (hd : destReg s.memwb.instr = none) : writeBack s = s.reg := by
  simp [writeBack, hd]

/-- Settles O31, by the destination register of the class (R111). -/
theorem writeBackWritesAtMostOneRegister : Obligations.WriteBackWritesAtMostOneRegister := by
  intro s hp
  refine ⟨cycle s, step_of_performs hp, rfl, fun hop => cycle_writes_destReg ?_, fun hop => cycle_writes_destReg ?_,
    fun hadd hnor hlw => writeBack_of_no_destReg (destReg_eq_none_of ⟨hadd, hnor, hlw⟩)⟩
  · rcases hop with hop | hop <;> simp [destReg, hop]
  · simp [destReg, hop]


/-! ### The sequential machine at an index in range -/

theorem execWord_of_decode {w : Word} {i : Instr} (hd : decode w = .instr i) (v : State) : execWord w v = exec i v := by
  unfold execWord
  rw [hd]

theorem seqStep_of_inRange {v : State} (hr : v.status = .running) (hpc : inRange v.pc = true) :
    seqStep v = execWord (v.fetch v.pc) v := by
  simp [seqStep, hr, hpc]

/-- R170: at a HALT the sequential machine stops. -/
theorem eq_stop_of_seqStep_halt {v v' : State} (hr : v.status = .running) (hpc : inRange v.pc = true)
    (hh : op (v.fetch v.pc) = .halt) (h : seqStep v = .next v') : v' = v.stop := by
  rw [seqStep_of_inRange hr hpc, execWord_eq, hh] at h
  exact (Host.Outcome.next.inj h).symm

/-! ### A word fetched into an empty pipeline -/

/-- R37, R217: an empty pipeline holds three bubbles, and nothing is left to be written back. -/
theorem sim_of_pipelineEmpty {s : State} (hr : s.status = .running) (he : s.pipelineEmpty) :
    Sim false false false s s := by
  obtain ⟨hifid, hidex, hexmem, hmemwb, hwbend⟩ := he
  constructor
  case running | seqRunning => exact hr
  case instrMem | dataMem => rfl
  case reg => exact writeBack_of_no_destReg (by simp [hmemwb])
  case wbend => simp [hwbend]
  case memwb => simp [hmemwb]
  case pc => simp [slot]
  case exmem => exact hexmem
  case idex => exact hidex
  case ifid => exact hifid
  all_goals simp

theorem stall_of_bubble {s : State} (h : s.idex.instr = noopWord) : stall s = false := by
  simp [stall, h]

theorem runCycles_succ_of_performs {s : State} (hp : s.performsCycle) (k : Nat) :
    runCycles (k + 1) s = runCycles k (cycle s) := by
  rw [runCycles_succ, step_of_performs hp]

/-- R122: three cycles bring the word at `pc` through IF, ID and EX into MEM. -/
theorem sim_three_cycles {s v : State} (h : Sim false false false s v) (hidx : v.pc.toNat ≤ 65531) :
    runCycles 3 s = .next (cycle (cycle (cycle s))) ∧ ∃ d, Sim true d true (cycle (cycle (cycle s))) v := by
  have hin {e d f : Bool} {u : State} (hu : Sim e d f u v) : inRange u.pc = true := sim_pc_inRange hu (by omega)
  obtain ⟨hp, hfetched⟩ := sim_bubble h (hin h)
  have hfetched : Sim false false true (cycle s) v := hfetched
  obtain ⟨hp', hdecoded⟩ := sim_bubble hfetched (hin hfetched)
  have hdecoded : Sim false true true (cycle (cycle s)) v := by
    simpa [stall_of_bubble (by simpa using hfetched.idex : (cycle s).idex.instr = noopWord)] using hdecoded
  obtain ⟨hp'', hexecuted⟩ := sim_bubble hdecoded (hin hdecoded)
  rw [runCycles_succ_of_performs hp, runCycles_succ_of_performs hp', runCycles_succ_of_performs hp'', runCycles_zero]
  exact ⟨rfl, _, hexecuted⟩

/-- R212, R222: from MEM, a word that does not branch is in WB/END two cycles later, and what the sequential machine does at it
is then done: a HALT's nothing, else one step. The word behind it is a bubble or harmless. -/
theorem sim_two_cycles {s v v' : State} {d : Bool} (h : Sim true d true s v) (hidx : v.pc.toNat ≤ 65531)
    (hnb : op (v.fetch v.pc) ≠ .beq) (hharm : harmlessInMem (v.fetch (nextIndex v.pc)) = true)
    (hstep : seqStep v = .next v') :
    s.performsCycle ∧ (cycle s).performsCycle ∧ (cycle (cycle s)).reg = v'.reg ∧
      (cycle (cycle s)).dataMem = v'.dataMem := by
  by_cases hh : op (v.fetch v.pc) = .halt
  · have hpc : inRange v.pc = true := (inRange_iff _).mpr (by simp only [Config.numMemory]; omega)
    rw [eq_stop_of_seqStep_halt h.seqRunning hpc hh hstep]
    obtain ⟨hp, hp', -, hreg, hdmem⟩ := sim_halt h hh hharm hidx
    exact ⟨hp, hp', hreg, hdmem⟩
  · obtain ⟨-, -, -, himem, -, -, hpc'⟩ := seqStep_effect h.seqRunning hstep hh
    rw [if_neg (fun hc => hnb hc.1)] at hpc'
    obtain ⟨hp, hsim⟩ := sim_advance h (sim_pc_inRange h (by omega)) hh hstep
    have hexmem : s.exmem.instr = v.fetch v.pc := congrArg ExMem.instr (by simpa using h.exmem : s.exmem = executedAt v)
    have hnt : ¬ takenBranch s = true := fun ht => hnb (hexmem ▸ ((takenBranch_iff s).mp ht).1)
    rw [if_neg hnt] at hsim
    have hbehind : harmlessInMem (cycle s).exmem.instr = true := by
      cases d with
      | false =>
        rw [(by simpa using hsim.exmem : (cycle s).exmem.instr = noopWord)]
        decide
      | true =>
        have hx : (cycle s).exmem = executedAt v' := by simpa using hsim.exmem
        have hfetch : v'.fetch v'.pc = v.fetch (nextIndex v.pc) := by rw [State.fetch, himem, hpc']; rfl
        rw [congrArg ExMem.instr hx]
        exact (congrArg harmlessInMem hfetch).trans hharm
    obtain ⟨hacc, -, hstore⟩ := not_access_of_harmless hbehind
    have hidx' : v'.pc.toNat ≤ 65532 := by rw [hpc', nextIndex]; bv_omega
    refine ⟨hp, sim_performs hsim (sim_pc_inRange hsim hidx') (fun _ hls => ?_), hsim.reg, hstore.trans hsim.dataMem⟩
    simp [(accessesData_iff _).mpr hls] at hacc

/-- Settles O42: three cycles bring the word into MEM, two more into WB/END, where the sequential machine's step, which is the
instruction's own, has been made. -/
theorem stepsRunTheDecodedInstruction : Obligations.StepsRunTheDecodedInstruction := by
  intro i s u hempty hr hidx hdec hnb hharm hexec
  have hfetch : s.fetch s.pc = encode i := (encodeOfDecodeIsTheWord _ i hdec).symm
  have hpc : inRange s.pc = true := (inRange_iff _).mpr (by simp only [Config.numMemory]; omega)
  have hseq : seqStep s = .next u := (seqStep_of_inRange hr hpc).trans ((execWord_of_decode hdec s).trans hexec)
  obtain ⟨hthree, d, hsim⟩ := sim_three_cycles (sim_of_pipelineEmpty hr hempty) hidx
  obtain ⟨hp, hp', hreg, hdmem⟩ := sim_two_cycles hsim hidx (by rwa [hfetch, op_encode]) hharm hseq
  have hexmem := congrArg ExMem.instr (by simpa using hsim.exmem : (cycle (cycle (cycle s))).exmem = executedAt s)
  rw [runCycles_add 2 hthree, runCycles_succ_of_performs hp, runCycles_succ_of_performs hp', runCycles_zero]
  exact ⟨_, rfl, hr, hreg, hdmem, hexmem.trans hfetch, rfl⟩

/-! ### A word placed in the pipeline before its effect (R122) -/

section
variable {v : State} {w : Word}

theorem executed_performs (hr : v.status = .running) (hpc : inRange v.pc = true)
    (hdata : op w = .lw ∨ op w = .sw → inRange (v.executed w).exmem.aluResult = true) :
    (v.executed w).performsCycle :=
  performsCycle_of_inRange hr (by simp) hdata hpc

theorem accessed_performs (hr : v.status = .running) (hpc : inRange v.pc = true) : (v.accessed w).performsCycle :=
  performsCycle_of_inRange hr (by simp) (by simp) hpc

theorem executed_aluResult (v : State) (w : Word) :
    (v.executed w).exmem.aluResult = alu (op w) (v.readReg (fieldA w)) (v.readReg (fieldB w)) (offset w) := by
  rw [State.executed_exmem]

/-- R116: a word in EX/MEM redirects `pc` when it is a BEQ whose operands were equal. -/
theorem nextPc_executed (v : State) (w : Word) :
    nextPc (v.executed w) =
      if op w = .beq ∧ equalFlag (v.readReg (fieldA w)) (v.readReg (fieldB w)) = 1
      then branchTarget (nextIndex v.pc) (offset w) else nextIndex v.pc := by
  have htaken : takenBranch (v.executed w) = true ↔
      op w = .beq ∧ equalFlag (v.readReg (fieldA w)) (v.readReg (fieldB w)) = 1 := by
    rw [takenBranch_iff, State.executed_exmem]
  have hstall : stall (v.executed w) = false := stall_of_bubble rfl
  split
  case isTrue hb => rw [nextPc_of_taken (htaken.mpr hb), State.executed_exmem]
  case isFalse hb => exact nextPc_of_advance (Bool.eq_false_iff.mpr fun h => hb (htaken.mp h)) hstall

/-- A word in MEM/WB with bubbles behind it lets `pc` move on. -/
theorem nextPc_accessed (v : State) (w : Word) : nextPc (v.accessed w) = nextIndex v.pc :=
  nextPc_of_advance (by simp [takenBranch]) (stall_of_bubble rfl)

/-- R115: for a word that writes a register, MEM hands WB the value the sequential machine writes. -/
theorem writeDataOf_executed {r : RegIdx} (hd : destReg w = some r) :
    writeDataOf (v.executed w) =
      seqWriteData w (alu (op w) (v.readReg (fieldA w)) (v.readReg (fieldB w)) (offset w)) v := by
  rw [← executed_aluResult, seqWriteData]
  split
  case isTrue hlw => rw [writeDataOf_eq, State.executed_exmem_instr, if_pos hlw, State.executed_dataMem]
  case isFalse hlw => exact writeDataOf_of_producer hd hlw

/-! Which slot `beforeEffect` takes -/

theorem beforeEffect_of_sw_or_beq (h : op w = .sw ∨ op w = .beq) : v.beforeEffect w = v.executed w := by
  unfold State.beforeEffect
  rcases h with h | h <;> rw [h]

theorem beforeEffect_of_out_of_range (h : op w = .lw ∨ op w = .sw)
    (hx : inRange (v.executed w).exmem.aluResult = false) : v.beforeEffect w = v.executed w := by
  rcases h with h | h
  · simp [State.beforeEffect, h, hx]
  · exact beforeEffect_of_sw_or_beq (.inl h)

theorem beforeEffect_of_halt (h : op w = .halt) : v.beforeEffect w = v.completed w := by
  unfold State.beforeEffect
  rw [h]

theorem beforeEffect_of_write_back (hh : op w ≠ .halt) (hm : ¬ (op w = .sw ∨ op w = .beq))
    (hx : op w = .lw → inRange (v.executed w).exmem.aluResult = true) : v.beforeEffect w = v.accessed w := by
  unfold State.beforeEffect
  cases hop : op w with
  | halt => exact absurd hop hh
  | sw => exact absurd (.inl hop) hm
  | beq => exact absurd (.inr hop) hm
  | lw => simp only [hx hop, if_true]
  | add | nor | jalr | noop | unsupported => rfl

end

/-- R122: from the slot before its effect, the next cycle does what the sequential machine does with the word at `pc`. -/
theorem step_beforeEffect {v v' : State} (hr : v.status = .running) (hpc : inRange v.pc = true)
    (h : seqStep v = .next v') :
    ∃ t, step (v.beforeEffect (v.fetch v.pc)) = .next t ∧ t.pc = v'.pc ∧ t.reg = v'.reg ∧ t.dataMem = v'.dataMem ∧
      t.status = v'.status := by
  by_cases hh : op (v.fetch v.pc) = .halt
  · rw [eq_stop_of_seqStep_halt hr hpc hh h, beforeEffect_of_halt hh]
    exact ⟨_, step_of_haltCheck hr (by simp [haltCheck, hh]), rfl, rfl, rfl, rfl⟩
  · obtain ⟨-, hin, hrun', -, hreg, hdmem, hpc'⟩ := seqStep_effect hr h hh
    rw [← executed_aluResult] at hin hdmem
    by_cases hm : op (v.fetch v.pc) = .sw ∨ op (v.fetch v.pc) = .beq
    · have hdest : destReg (v.fetch v.pc) = none := destReg_eq_none_of (by rcases hm with hm | hm <;> simp [hm])
      rw [beforeEffect_of_sw_or_beq hm]
      refine ⟨_, step_of_performs (executed_performs hr hpc hin), ?_, ?_, ?_, hr.trans hrun'.symm⟩
      · rw [cycle_pc, nextPc_executed, hpc']
      · rw [hreg, hdest]
        exact writeBack_of_no_destReg (by simp)
      · rw [hdmem, cycle_dataMem, storeEffect_eq, State.executed_exmem]
        rfl
    · rw [beforeEffect_of_write_back hh hm fun hlw => hin (.inl hlw)]
      refine ⟨_, step_of_performs (accessed_performs hr hpc), ?_, ?_, ?_, hr.trans hrun'.symm⟩
      · rw [cycle_pc, nextPc_accessed, hpc', if_neg fun hc => hm (.inr hc.1)]
      · rw [hreg, cycle_reg, writeBack, State.accessed_memwb_instr]
        cases hd : destReg (v.fetch v.pc) with
        | none => rfl
        | some r => exact congrArg (writeFile v.reg r) (writeDataOf_executed hd)
      · rw [hdmem, if_neg fun hc => hm (.inl hc)]
        exact storeEffect_of_not_sw (by simp)

/-- R182: a word faults by its data address alone, exactly when that is out of range. -/
theorem execWord_eq_fault_iff (w : Word) (v : State) (f : Fault) :
    execWord w v = .fault f ↔
      (op w = .lw ∨ op w = .sw) ∧ inRange (v.executed w).exmem.aluResult = false ∧
        f = .dataOutOfRange (v.executed w).exmem.aluResult := by
  rw [execWord_eq, executed_aluResult]
  cases hop : op w with
  | lw | sw =>
    simp only [execLw, execSw, alu, offset]
    split
    case isTrue hx => simp [hx]
    case isFalse hx => simp [hx, eq_comm]
  | add | nor | beq | jalr | halt | noop | unsupported =>
    simp [execAdd, execNor, execBeq, execJalr, execHalt, execNoop, inertWord]

/-- R182, R122: the word that faults in the sequential machine faults from EX/MEM alike. -/
theorem step_beforeEffect_of_fault {v : State} {w : Word} {f : Fault} (hr : v.status = .running)
    (h : execWord w v = .fault f) : step (v.beforeEffect w) = .fault f := by
  obtain ⟨hop, hx, rfl⟩ := (execWord_eq_fault_iff w v f).mp h
  rw [beforeEffect_of_out_of_range hop hx]
  have hacc : accessesData (v.executed w) = true := (accessesData_iff _).mpr hop
  exact step_of_faultOf hr (by simp [haltCheck]) (by simp [faultOf, hacc, hx])

/-! ### `withFetchWord` -/

/-- The state with `w` in instruction memory at `pc`, from which `withFetchWord` carries it ahead. -/
def State.withWordAtPc (s : State) (w : Word) : State := { s with instrMem := s.instrMem.write s.pc.toNat w }

theorem State.fetch_withWordAtPc {s : State} (w : Word) (hm : s.instrMem.wf = true) :
    (s.withWordAtPc w).fetch (s.withWordAtPc w).pc = w := by
  simp [State.fetch, State.withWordAtPc, Memory.read_write _ _ hm]

theorem tableWord_toNat (w : Word) : tableWord 32 w.toNat = some w := by
  simp [tableWord, Nat.mod_eq_of_lt w.isLt, w.isLt]

theorem State.withFetchWord_of_inRange {s : State} (w : Word) (hpc : inRange s.pc = true) :
    s.withFetchWord 32 w.toNat = (s.withWordAtPc w).beforeEffect w := by
  simp [State.withFetchWord, tableWord_toNat, hpc, State.withWordAtPc]

section
variable {s : State} (w : Word)

/-- R30: what `exec` does with a word does not depend on where it stands. -/
theorem exec_withWordAtPc_of_next {i : Instr} {u : State} (h : exec i s = .next u) :
    exec i (s.withWordAtPc w) = .next { u with cycles := s.cycles, instrMem := (s.withWordAtPc w).instrMem } :=
  exec_with_cycles_instrMem s.cycles _ h

theorem execWord_withWordAtPc_of_fault {f : Fault} (h : execWord w s = .fault f) :
    execWord w (s.withWordAtPc w) = .fault f :=
  (execWord_eq_fault_iff w _ f).mpr ((execWord_eq_fault_iff w s f).mp h)

end

/-- Settles O53: placing keeps what `beforeEffect` keeps, and the next step does what the sequential machine does at the placed
word, which is what `exec` does in `s`, since no instruction reads instruction memory. -/
theorem placedInstructionRunsAtTheNextStep : Obligations.PlacedInstructionRunsAtTheNextStep := by
  intro i s hr hlegal hm
  have hpc : inRange s.pc = true := (legalAddress_iff_inRange _).mp hlegal
  have hdec := decodeOfEncodeIsIdentity i
  rw [State.withFetchWord_of_inRange (encode i) hpc]
  have hfetch := State.fetch_withWordAtPc (encode i) hm
  obtain ⟨hkpc, hkreg, hkimem, hkdmem, hkcycles, hkstatus⟩ := (s.withWordAtPc (encode i)).beforeEffect_frame (encode i)
  refine ⟨?_, hkpc, hkreg, hkdmem, hkcycles, hkstatus, fun u hu => ?_, fun f hf => ?_⟩
  · rw [hkimem, hkpc]
    exact hfetch
  · have hseq : seqStep (s.withWordAtPc (encode i)) = _ := seqStep_of_inRange hr hpc
    rw [hfetch, execWord_of_decode hdec, exec_withWordAtPc_of_next _ hu] at hseq
    have hstep := step_beforeEffect (v := s.withWordAtPc (encode i)) hr hpc hseq
    rwa [hfetch] at hstep
  · rw [← execWord_of_decode hdec] at hf
    exact step_beforeEffect_of_fault hr (execWord_withWordAtPc_of_fault _ hf)

end Sys2Proof.Machine

/-! # Proofs of the family 41_arithmetic.md: the effect of ADD and NOR -/

namespace Sys2Proof.Machine

theorem exec_add_eq (a b : RegIdx) (unused : BitVec 13) (c : RegIdx) (s : State) :
    exec (.add a b unused c) s =
      .next ((s.writeReg c (s.readReg a + s.readReg b)).setPc (nextIndex s.pc)) := rfl

theorem exec_nor_eq (a b : RegIdx) (unused : BitVec 13) (c : RegIdx) (s : State) :
    exec (.nor a b unused c) s =
      .next ((s.writeReg c (~~~(s.readReg a ||| s.readReg b))).setPc (nextIndex s.pc)) := rfl

theorem sameRegsBut_writeReg_setPc (s : State) (c : RegIdx) (v x : Word) :
    s.sameRegsBut ((s.writeReg c v).setPc x) c := by
  intro r hr
  rw [State.readReg_setPc, State.readReg_writeReg, if_neg hr.symm]

/-- The whole effect, frame included, of an instruction that writes one register and advances `pc`, whatever value it
computes: what ADD and NOR share. -/
theorem effect_of_writeReg_advance {s t : State} {c : RegIdx} {v : Word}
    (ht : t = (s.writeReg c v).setPc (nextIndex s.pc)) :
    t.readReg c = v ∧ t.pc = s.pc + 1 ∧
      s.sameRegsBut t c ∧ s.sameDataMem t ∧ s.sameInstrMem t ∧ s.sameClocked t ∧ t.status = s.status := by
  subst ht
  have hclocked : s.sameClocked ((s.writeReg c v).setPc (nextIndex s.pc)) := ⟨rfl, rfl, rfl, rfl, rfl, rfl⟩
  exact ⟨readReg_writeReg_same s c v, rfl, sameRegsBut_writeReg_setPc s c v _, fun _ => rfl, fun _ => rfl, hclocked, rfl⟩

/-- Settles O7: ADD is the write of the sum with the advance of `pc` (R140). -/
theorem addWritesTheSum : Obligations.AddWritesTheSum := fun a b unused c s =>
  ⟨_, exec_add_eq a b unused c s, effect_of_writeReg_advance rfl⟩

/-- Settles O8: NOR is the write of the NOR with the advance of `pc` (R141). -/
theorem norWritesTheNor : Obligations.NorWritesTheNor := fun a b unused c s =>
  ⟨_, exec_nor_eq a b unused c s, effect_of_writeReg_advance rfl⟩

end Sys2Proof.Machine

/-! # Proofs of the family 42_load_store.md: data memory in a step and in `exec`, the effect of LW and SW -/

namespace Sys2Proof.Machine

/-! ### Data memory in a step -/

theorem step_keeps_dataMem {s t : State} (h : step s = .next t) (hsw : op s.exmem.instr ≠ .sw) :
    t.dataMem = s.dataMem := by
  rcases step_cases h with ⟨-, rfl⟩ | ⟨-, -, rfl⟩ | ⟨-, rfl⟩
  · rfl
  · rfl
  · exact storeEffect_of_not_sw hsw

/-- R115: the write data of every class but LW comes from EX. -/
theorem memoryStage_with_dataMem {s : State} (m : Memory) (hlw : op s.exmem.instr ≠ .lw) :
    memoryStage { s with dataMem := m } = memoryStage s := by
  simp only [memoryStage, writeDataOf_eq, if_neg hlw]

/-- R115, R116: a cycle touches data memory in MEM alone, and there only for LW and SW. -/
theorem cycle_with_dataMem {s : State} (m : Memory) (hlw : op s.exmem.instr ≠ .lw) (hsw : op s.exmem.instr ≠ .sw) :
    cycle { s with dataMem := m } = { cycle s with dataMem := m } := by
  have hstore : storeEffect { s with dataMem := m } = m := storeEffect_of_not_sw hsw
  unfold cycle
  rw [memoryStage_with_dataMem m hlw, hstore]
  rfl

theorem step_with_dataMem {s t : State} (m : Memory) (h : step s = .next t) (hlw : op s.exmem.instr ≠ .lw)
    (hsw : op s.exmem.instr ≠ .sw) : step { s with dataMem := m } = .next { t with dataMem := m } := by
  rcases step_cases h with ⟨hs, rfl⟩ | ⟨hr, hh, rfl⟩ | ⟨hp, rfl⟩
  · exact step_of_halted hs
  · exact step_of_haltCheck hr hh
  · rw [← cycle_with_dataMem m hlw hsw]
    exact step_of_performs hp

/-! ### Data memory in `exec` -/

theorem exec_keeps_dataMem {i : Instr} {s t : State} (h : exec i s = .next t) (hsw : i.opClass ≠ .sw) :
    t.dataMem = s.dataMem := by
  cases i with
  | add | nor | beq | jalr | halt | noop => cases h; rfl
  | lw a b imm =>
    obtain ⟨-, rfl⟩ := (exec_lw_eq_next_iff a b imm s t).mp h
    rfl
  | sw => exact absurd rfl hsw

theorem exec_with_dataMem {i : Instr} {s t : State} (m : Memory) (h : exec i s = .next t) (hlw : i.opClass ≠ .lw)
    (hsw : i.opClass ≠ .sw) : exec i { s with dataMem := m } = .next { t with dataMem := m } := by
  cases i with
  | add | nor | beq | jalr | halt | noop => cases h; rfl
  | lw => exact absurd rfl hlw
  | sw => exact absurd rfl hsw

/-- Settles O36: without SW a step and an instruction keep data memory, and with neither LW nor SW replacing it replaces it in
the next state and nothing else. -/
theorem onlyLwReadsAndOnlySwWritesDataMemory : Obligations.OnlyLwReadsAndOnlySwWritesDataMemory :=
  ⟨fun _ _ => step_keeps_dataMem, fun _ _ => step_with_dataMem, fun _ _ _ => exec_keeps_dataMem,
    fun _ _ _ => exec_with_dataMem⟩

/-! ### The effect of LW and SW at a legal address -/

/-- Settles O9: at a legal address LW is the write of the loaded word with the advance of `pc` (R151). -/
theorem lwLoadsTheWord : Obligations.LwLoadsTheWord := by
  intro a b imm s hlegal
  have hin := (legalAddress_iff_inRange _).mp hlegal
  exact ⟨_, (exec_lw_eq_next_iff a b imm s _).mpr ⟨hin, rfl⟩, effect_of_writeReg_advance rfl⟩

/-- Settles O10: at a legal address, which is below the capacity, SW is one write of a canonical memory with the advance of
`pc` (R152). -/
theorem swStoresTheWord : Obligations.SwStoresTheWord := by
  intro a b imm s hwf hlegal
  have hin := (legalAddress_iff_inRange _).mp hlegal
  have hcap := (inRange_iff _).mp hin
  exact ⟨_, (exec_sw_eq_next_iff a b imm s _).mpr ⟨hin, rfl⟩, rfl, Memory.read_write _ _ hwf, Memory.wf_write _ hwf hcap,
    fun _ => rfl, fun _ => rfl, ⟨rfl, rfl, rfl, rfl, rfl, rfl⟩, rfl⟩

end Sys2Proof.Machine

/-! # Proofs of the family 43_branch.md: the effect of BEQ, a branch not taken, a branch alone in the pipeline -/

namespace Sys2Proof.Machine

/-! ### The effect of BEQ -/

theorem exec_beq_eq (a b : RegIdx) (imm : BitVec 16) (s : State) :
    exec (.beq a b imm) s =
      .next (s.setPc (if s.readReg a = s.readReg b then s.pc + 1 + sext16 imm else s.pc + 1)) := by
  simp only [exec, execBeq, flagSet_equalFlag, decide_eq_true_eq, branchTarget, nextIndex]

/-- Settles O12: BEQ is a write of `pc` and of nothing else (R161). -/
theorem beqBranchesOnEquality : Obligations.BeqBranchesOnEquality := fun a b imm s =>
  ⟨_, exec_beq_eq a b imm s, rfl, fun _ => rfl, fun _ => rfl, fun _ => rfl, ⟨rfl, rfl, rfl, rfl, rfl, rfl⟩, rfl⟩

/-! ### A branch that is not taken -/

/-- `s` with a no-op in place of the word in EX/MEM, whose latched fields stay: what R162 compares a branch not taken with. -/
def State.withNoopInMem (s : State) : State := { s with exmem := { s.exmem with instr := noopWord } }

section
variable {s : State}

theorem takenBranch_withNoopInMem : takenBranch s.withNoopInMem = false := by
  simp [takenBranch, State.withNoopInMem]

theorem performsCycle_withNoopInMem (hp : s.performsCycle) : s.withNoopInMem.performsCycle := by
  obtain ⟨hrun, hhalt, hfault⟩ := hp
  exact ⟨hrun, hhalt, (faultOf_eq_none_iff _).mpr
    ⟨by simp [accessesData, State.withNoopInMem], ((faultOf_eq_none_iff s).mp hfault).2⟩⟩

/-- R110: like a no-op, a word that writes no register supplies no operand. -/
theorem forwarded_withNoopInMem (hd : destReg s.exmem.instr = none) (r : RegIdx) (v : Word) :
    forwarded s.withNoopInMem r v = forwarded s r v := by
  have hd' : destReg s.withNoopInMem.exmem.instr = none := destReg_noopWord
  rw [forwarded_eq, forwarded_eq, hd, hd']
  rfl

theorem executeStage_withNoopInMem (hd : destReg s.exmem.instr = none) :
    executeStage s.withNoopInMem = executeStage s := by
  simp only [executeStage, operandA, operandB, forwarded_withNoopInMem hd]
  rfl

theorem storeEffect_withNoopInMem (hsw : op s.exmem.instr ≠ .sw) : storeEffect s.withNoopInMem = storeEffect s := by
  rw [storeEffect_of_not_sw hsw]
  exact storeEffect_of_not_sw (by simp [State.withNoopInMem])

/-- R162: a word in MEM that writes no register, does not store and takes no branch leaves what a no-op leaves, but for its
own way on to MEM/WB. -/
theorem cycle_eq_cycle_withNoopInMem (hnt : takenBranch s = false) (hd : destReg s.exmem.instr = none)
    (hsw : op s.exmem.instr ≠ .sw) : cycle s = { cycle s.withNoopInMem with memwb := memoryStage s } := by
  simp only [cycle, nextPc, nextIfid, nextIdex, nextExmem, hnt, takenBranch_withNoopInMem, executeStage_withNoopInMem hd,
    storeEffect_withNoopInMem hsw]
  rfl

end

/-- Settles O33: a BEQ writes no register and does not store, so, not taken, it differs from a no-op in MEM/WB alone. -/
theorem notTakenBranchDisturbsNothing : Obligations.NotTakenBranchDisturbsNothing := by
  intro s hp hbeq hflag
  have hnt : takenBranch s = false := Bool.eq_false_iff.mpr fun ht => hflag ((takenBranch_iff s).mp ht).2
  have hcycle := cycle_eq_cycle_withNoopInMem hnt (by simp [destReg, hbeq]) (by simp [hbeq])
  refine ⟨cycle s, _, step_of_performs hp, step_of_performs (performsCycle_withNoopInMem hp), ?_⟩
  rw [hcycle]
  exact ⟨rfl, rfl, rfl, rfl, rfl, rfl, rfl, rfl, rfl⟩

/-! ### A branch alone in the pipeline -/

section
variable {s v : State} {d f : Bool}

/-- R116, R161: the branch in MEM is taken exactly when the sequential machine takes it. -/
theorem sim_takenBranch (h : Sim true d f s v) : takenBranch s = v.seqTakes := by
  have hexmem : s.exmem = executedAt v := by simpa using h.exmem
  rw [Bool.eq_iff_iff, takenBranch_iff, hexmem]
  simp only [executedAt, State.seqTakes, equalFlag_eq_one_iff, Bool.and_eq_true, beq_iff_eq]

theorem exmem_instr_of_sim (h : Sim true d f s v) : s.exmem.instr = v.fetch v.pc :=
  congrArg ExMem.instr (by simpa using h.exmem : s.exmem = executedAt v)

/-- R117, R162: the cycle of a branch in MEM makes the sequential machine's step. Taken, the branch leaves three bubbles and
`pc` where that machine goes; else the word that machine executes next moves up behind it. -/
theorem sim_branch_cycle {v' : State} (h : Sim true d f s v) (hidx : v.pc.toNat ≤ 65531)
    (hop : op (v.fetch v.pc) = .beq) (hstep : seqStep v = .next v') :
    s.performsCycle ∧ (cycle s).dataMem = v.dataMem ∧
      (v.seqTakes = true → (cycle s).pc = v'.pc ∧ (cycle s).ifid.instr = noopWord ∧ (cycle s).idex.instr = noopWord ∧
        (cycle s).exmem.instr = noopWord) ∧
      (v.seqTakes ≠ true → (cycle s).exmem.instr = v'.fetch v'.pc) := by
  have hmem : op s.exmem.instr = .beq := (congrArg op (exmem_instr_of_sim h)).trans hop
  obtain ⟨hp, hnext⟩ := sim_advance h (sim_pc_inRange h (by omega)) (by simp [hop]) hstep
  rw [sim_takenBranch h] at hnext
  refine ⟨hp, (storeEffect_of_not_sw (by simp [hmem])).trans h.dataMem, fun htaken => ?_, fun hnt => ?_⟩
  · rw [if_pos htaken] at hnext
    exact ⟨by simpa [slot] using hnext.pc, hnext.ifid, hnext.idex, hnext.exmem⟩
  · have hbehind : d = true := h.bubbleBehindLoad rfl (by simp [hmem])
    rw [if_neg hnt, hbehind] at hnext
    exact exmem_instr_of_sim hnext

end

theorem seqTakes_iff_of_decode {a b : RegIdx} {imm : BitVec 16} {v : State}
    (hdec : decode (v.fetch v.pc) = .instr (.beq a b imm)) : v.seqTakes = true ↔ v.readReg a = v.readReg b := by
  rw [State.seqTakes, ← encodeOfDecodeIsTheWord _ _ hdec, op_encode]
  simp [Instr.opClass, encode]

/-- Settles O44: three cycles bring the branch into MEM, and the fourth makes the sequential machine's step, which is BEQ's
own. -/
theorem loneBranchRedirects : Obligations.LoneBranchRedirects := by
  intro a b imm s hempty hr hidx hdec
  have hpc : inRange s.pc = true := (inRange_iff _).mpr (by simp only [Config.numMemory]; omega)
  have hexec := exec_beq_eq a b imm s
  have hseq := (seqStep_of_inRange hr hpc).trans ((execWord_of_decode hdec s).trans hexec)
  obtain ⟨hthree, d, hsim⟩ := sim_three_cycles (sim_of_pipelineEmpty hr hempty) hidx
  obtain ⟨hp, hdmem, htaken, hnotTaken⟩ := sim_branch_cycle hsim hidx (op_of_decode hdec) hseq
  rw [seqTakes_iff_of_decode hdec] at htaken
  rw [Ne, seqTakes_iff_of_decode hdec] at hnotTaken
  rw [runCycles_add 1 hthree, runCycles_succ_of_performs hp, runCycles_zero]
  exact ⟨_, _, rfl, hexec, hr, hsim.reg, hdmem, rfl,
    (exmem_instr_of_sim hsim).trans (encodeOfDecodeIsTheWord _ _ hdec).symm, htaken, hnotTaken⟩

end Sys2Proof.Machine

/-! # Proofs of the family 44_system.md: a HALT alone in the pipeline, the effect of JALR, NOOP, HALT, unsupported words -/

namespace Sys2Proof.Machine

/-! ### A HALT alone in the pipeline -/

/-- R38: a run that ends in a running state has not started in a stopped one, which is final. -/
theorem running_of_runCycles_running {j : Nat} {s t : State} (h : runCycles j s = .next t)
    (ht : t.status = .running) : s.status = .running := by
  cases hs : s.status with
  | running => rfl
  | halted =>
    cases (runCycles_of_halted hs j).symm.trans h
    simp [hs] at ht
  | faulted f =>
    cases j with
    | zero =>
      cases h
      simp [hs] at ht
    | succ j => cases (runCycles_succ_of_faulted hs j).symm.trans h

/-- R38: every state on the way of a run that ends in a running state runs. -/
theorem running_before_running {k n : Nat} {s t u : State} (hn : runCycles n s = .next t) (ht : t.status = .running)
    (hkn : k ≤ n) (hk : runCycles k s = .next u) : u.status = .running := by
  rw [← Nat.add_sub_cancel' hkn, runCycles_add (n - k) hk] at hn
  exact running_of_runCycles_running hn ht

/-- R101: a HALT in WB/END ends the run at its first step, whatever its length. -/
theorem runCycles_succ_of_haltCheck {s : State} (hr : s.status = .running) (hh : haltCheck s = true) (k : Nat) :
    runCycles (k + 1) s = .next s.stop := by
  rw [runCycles_succ, step_of_haltCheck hr hh]
  exact runCycles_of_halted rfl k

/-- Settles O45: three cycles bring the HALT into MEM and two more into WB/END, with the registers and data memory as they
were; the sixth step finds it there and stops. -/
theorem loneHaltStopsAfterFiveCycles : Obligations.LoneHaltStopsAfterFiveCycles := by
  intro a b low s hempty hr hidx hdec hharm
  obtain ⟨hthree, d, hsim⟩ := sim_three_cycles (sim_of_pipelineEmpty hr hempty) hidx
  obtain ⟨hp, hp', hhalt, hreg, hdmem⟩ := sim_halt hsim (op_of_decode hdec) hharm hidx
  have hfive : runCycles 5 s = .next (cycle (cycle (cycle (cycle (cycle s))))) := by
    rw [runCycles_add 2 hthree, runCycles_succ_of_performs hp, runCycles_succ_of_performs hp', runCycles_zero]
  have hrun : (cycle (cycle (cycle (cycle (cycle s))))).status = .running := hr
  have hsix := (runCycles_add 1 hfive).trans (runCycles_succ_of_haltCheck hrun hhalt 0)
  exact ⟨_, hsix, rfl, hreg, hdmem, rfl, fun k hk u => running_before_running hfive hrun hk⟩

/-! ### The effect of JALR, NOOP and the unsupported words -/

/-- The whole effect, frame included, of a word that only advances `pc`: what JALR, NOOP and the unsupported words share. -/
theorem effect_of_advance {s t : State} (ht : t = s.setPc (nextIndex s.pc)) :
    t.pc = s.pc + 1 ∧
      s.sameRegs t ∧ s.sameDataMem t ∧ s.sameInstrMem t ∧ s.sameClocked t ∧ t.status = s.status := by
  subst ht
  exact ⟨rfl, fun _ => rfl, fun _ => rfl, fun _ => rfl, ⟨rfl, rfl, rfl, rfl, rfl, rfl⟩, rfl⟩

theorem exec_jalr_eq (a b : RegIdx) (low : BitVec 16) (s : State) :
    exec (.jalr a b low) s = .next (s.setPc (nextIndex s.pc)) := rfl

theorem exec_noop_eq (a b : RegIdx) (low : BitVec 16) (s : State) :
    exec (.noop a b low) s = .next (s.setPc (nextIndex s.pc)) := rfl

/-- Settles O13: the instructions of the two classes only advance `pc` (R171, R172). -/
theorem jalrAndNoopOnlyAdvance : Obligations.JalrAndNoopOnlyAdvance := by
  intro i s hclass
  cases i with
  | jalr a b low => exact ⟨_, exec_jalr_eq a b low s, effect_of_advance rfl⟩
  | noop a b low => exact ⟨_, exec_noop_eq a b low s, effect_of_advance rfl⟩
  | add | nor | lw | sw | beq | halt => simp [Instr.opClass] at hclass

/-- R173: a word that the decoder rejects is inert. -/
theorem execWord_of_unsupported {w : Word} {sel : BitVec 10} (hd : decode w = .unsupported sel) (s : State) :
    execWord w s = .next (s.setPc (nextIndex s.pc)) := by
  rw [execWord, hd, inertWord]

/-- Settles O15: the decoder rejects every word of 2^25 or more (R83), and what it rejects only advances `pc`. -/
theorem unsupportedWordsAreInert : Obligations.UnsupportedWordsAreInert := by
  intro w s hbig
  have hrejected : decode w = .unsupported (opcode w) := (decoderRejectsExactlyUnsupportedWords w _).mpr ⟨rfl, hbig⟩
  exact ⟨_, execWord_of_unsupported hrejected s, effect_of_advance rfl⟩

/-! ### The effect of HALT -/

theorem exec_halt_eq (a b : RegIdx) (low : BitVec 16) (s : State) : exec (.halt a b low) s = .next s.stop := rfl

/-- Settles O14: HALT is the stop, which changes the status alone (R170). -/
theorem haltStopsAndChangesNothingElse : Obligations.HaltStopsAndChangesNothingElse := fun a b low s =>
  ⟨s.stop, exec_halt_eq a b low s, s.stop_status, s.stop_pc, s.readReg_stop, fun _ => rfl, fun _ => rfl,
    ⟨rfl, rfl, rfl, rfl, rfl, rfl⟩⟩

end Sys2Proof.Machine

/-! # Proofs of the family 60_exceptions.md: when a step faults, what a fault leaves, an access out of range -/

namespace Sys2Proof.Machine

/-! ### When a step faults, and what it leaves -/

theorem haltCheck_eq_false_iff (s : State) : haltCheck s = false ↔ op s.wbend.instr ≠ .halt := by
  simp [haltCheck]

/-- R181, R182, R185: the data fault of the word in MEM goes first, the fetch fault is what is left. -/
theorem faultOf_eq_some_iff (s : State) (f : Fault) :
    faultOf s = some f ↔
      ((accessesData s = true ∧ inRange s.exmem.aluResult ≠ true) ∧ f = .dataOutOfRange s.exmem.aluResult) ∨
        (¬ (accessesData s = true ∧ inRange s.exmem.aluResult ≠ true) ∧ inRange s.pc ≠ true ∧
          f = .fetchOutOfRange s.pc) := by
  have hcond : (accessesData s && !inRange s.exmem.aluResult) = true ↔
      accessesData s = true ∧ inRange s.exmem.aluResult ≠ true := by simp
  unfold faultOf
  by_cases hdata : accessesData s = true ∧ inRange s.exmem.aluResult ≠ true
  · rw [if_pos (hcond.mpr hdata)]
    simp [hdata, eq_comm (b := f)]
  · rw [if_neg (mt hcond.mp hdata)]
    simp only [hdata, false_and, false_or, not_false_eq_true, true_and]
    by_cases hpc : inRange s.pc = true
    · simp [hpc]
    · simp [hpc, eq_comm (b := f)]

/-- R102: a running machine's step faults exactly when the halt check fails and the fault check answers that fault. -/
theorem step_eq_fault_iff {s : State} (hr : s.status = .running) (f : Fault) :
    step s = .fault f ↔ haltCheck s = false ∧ faultOf s = some f := by
  refine ⟨fun h => ?_, fun ⟨hh, hf⟩ => step_of_faultOf hr hh hf⟩
  rcases step_trichotomy s with ⟨-, he⟩ | ⟨-, -, he⟩ | ⟨-, he⟩ | ⟨g, he, hg⟩ <;> cases he.symm.trans h
  rcases hg with hg | ⟨-, hh, hf⟩
  · cases hr.symm.trans hg
  · exact ⟨hh, hf⟩

/-- Settles O19: a step's fault is the fault check's answer after a failed halt check, in the order of R185. -/
theorem stepFaultsExactlyOutOfRange : Obligations.StepFaultsExactlyOutOfRange := by
  intro s f hr
  rw [step_eq_fault_iff hr, haltCheck_eq_false_iff, faultOf_eq_some_iff]
  simp only [accessesData_iff, legalAddress_iff_inRange, and_assoc]

/-- Settles O20: the edge of a faulting step is `raise`, and a faulted state answers its fault. -/
theorem faultAbandonsTheCycle : Obligations.FaultAbandonsTheCycle := by
  intro s f hr h
  obtain ⟨hh, hf⟩ := (step_eq_fault_iff hr f).mp h
  have hedge : clockEdge s = s.raise f := clockEdge_of_faultOf hr hh hf
  exact ⟨hedge, hedge ▸ step_of_faulted (s.raise_status f)⟩

/-- Settles O21: a next state is a halted one, the stop, or that of a performed cycle, which still runs. -/
theorem nextStateIsNeverFaulted : Obligations.NextStateIsNeverFaulted := by
  intro s t f h
  rcases step_cases h with ⟨hs, rfl⟩ | ⟨-, -, rfl⟩ | ⟨⟨hr, -, -⟩, rfl⟩
  · simp [hs]
  · simp
  · simp [hr]

/-! ### LW and SW out of range -/

theorem exec_lw_of_out_of_range {a b : RegIdx} {imm : BitVec 16} {s : State}
    (h : ¬ inRange (s.readReg a + sext16 imm) = true) :
    exec (.lw a b imm) s = .fault (.dataOutOfRange (s.readReg a + sext16 imm)) := if_neg h

theorem exec_sw_of_out_of_range {a b : RegIdx} {imm : BitVec 16} {s : State}
    (h : ¬ inRange (s.readReg a + sext16 imm) = true) :
    exec (.sw a b imm) s = .fault (.dataOutOfRange (s.readReg a + sext16 imm)) := if_neg h

/-- Settles O11: a legal address is one in range, and out of range both accesses fault with it (R182). -/
theorem lwAndSwFaultOutOfRange : Obligations.LwAndSwFaultOutOfRange := by
  intro a b imm s h
  rw [legalAddress_iff_inRange] at h
  exact ⟨exec_lw_of_out_of_range h, exec_sw_of_out_of_range h⟩

/-! ### A faulting access alone in the pipeline -/

/-- R182: a word in MEM that faults in the sequential machine faults the cycle alike, whatever is behind it. -/
theorem step_of_sim_of_fault {d f : Bool} {s v : State} {x : Fault} (h : Sim true d f s v)
    (hx : execWord (v.fetch v.pc) v = .fault x) : step s = .fault x := by
  have hexmem : s.exmem = (v.executed (v.fetch v.pc)).exmem :=
    (by simpa using h.exmem : s.exmem = executedAt v).trans (State.executed_exmem v _).symm
  obtain ⟨hop, hrange, rfl⟩ := (execWord_eq_fault_iff _ v x).mp hx
  rw [← hexmem] at hrange ⊢
  rw [← exmem_instr_of_sim h, ← accessesData_iff] at hop
  exact (step_eq_fault_iff h.running _).mpr ⟨(haltCheck_eq_false_iff s).mpr h.wbend,
    (faultOf_eq_some_iff s _).mpr (.inl ⟨⟨hop, by simp [hrange]⟩, rfl⟩)⟩

/-- R118: on the way of the word into MEM the registers come to hold what was left to be written back. -/
theorem reg_three_cycles {s v : State} (h : Sim false false false s v) (hidx : v.pc.toNat ≤ 65531) :
    (cycle (cycle (cycle s))).reg = v.reg := by
  have hfetched : Sim false false true (cycle s) v := (sim_bubble h (sim_pc_inRange h (by omega))).2
  exact (sim_bubble hfetched (sim_pc_inRange hfetched (by omega))).2.reg

/-- Settles O43: three cycles bring the access into MEM with the registers and data memory as they were, and there it faults as
the sequential machine does, which runs `exec`. -/
theorem loneAccessFaultsInMem : Obligations.LoneAccessFaultsInMem := by
  intro i s f hempty hr hidx hdec hexec
  have hbubbles := sim_of_pipelineEmpty hr hempty
  obtain ⟨hthree, d, hsim⟩ := sim_three_cycles hbubbles hidx
  have hfault : step (cycle (cycle (cycle s))) = .fault f :=
    step_of_sim_of_fault hsim ((execWord_of_decode hdec s).trans hexec)
  refine ⟨⟨_, hthree, rfl, reg_three_cycles hbubbles hidx, hsim.dataMem⟩, ?_⟩
  rw [runCycles_add 1 hthree, runCycles_succ, hfault]

end Sys2Proof.Machine

/-! # Proofs of the family 70_reset_and_hazards.md: loading, the ports, the clocked against the sequential machine -/

namespace Sys2Proof.Machine

/-! ### Loading an image -/

/-- Settles O49: what a loaded memory reads at each index; `State.load` sets the two memories alone. -/
theorem loadPutsTheImageInBothMemories : Obligations.LoadPutsTheImageInBothMemories := by
  intro image _
  have hread (a : Nat) : (Memory.ofWords 0 image).read a = image[a]?.getD Memory.unlisted := by
    simp [Memory.read_ofWords]
  refine ⟨fun a ha => ?_, fun a ha => ?_, rfl⟩
  · simp [hread, ha]
  · simp [hread, ha, Memory.unlisted]

theorem imageWord_eq_some_iff (v : Int) (w : Word) :
    imageWord v = some w ↔ (-2 ^ 31 ≤ v ∧ v < 2 ^ 31) ∧ w = BitVec.ofInt 32 v := by
  simp [imageWord, eq_comm (b := w)]

/-- R201: a list of integers has words exactly when each is in range, and they are the patterns modulo 2^32. -/
theorem imageWords_eq_some_iff (image : List Int) (ws : List Word) :
    imageWords image = some ws ↔
      (∀ v ∈ image, -2 ^ 31 ≤ v ∧ v < 2 ^ 31) ∧ ws = image.map (BitVec.ofInt 32) := by
  induction image generalizing ws with
  | nil => simp [imageWords, eq_comm (b := ws)]
  | cons v vs ih =>
    have hcons : imageWords (v :: vs) = some ws ↔
        ∃ w us, imageWord v = some w ∧ imageWords vs = some us ∧ ws = w :: us := by
      rw [imageWords]
      cases imageWord v <;> cases imageWords vs <;> simp [eq_comm (b := ws)]
    rw [hcons]
    simp only [imageWord_eq_some_iff, ih, List.forall_mem_cons, List.map_cons]
    constructor
    · rintro ⟨_, _, ⟨hv, rfl⟩, ⟨hvs, rfl⟩, rfl⟩
      exact ⟨⟨hv, hvs⟩, rfl⟩
    · rintro ⟨⟨hv, hvs⟩, rfl⟩
      exact ⟨_, _, ⟨hv, rfl⟩, ⟨hvs, rfl⟩, rfl⟩

theorem init_eq_some_iff (image : List Int) (s : State) :
    State.init image = some s ↔
      ∃ ws, imageWords image = some ws ∧ ws.length ≤ Config.numMemory ∧ s = State.load ws := by
  unfold State.init
  cases imageWords image with
  | none => simp
  | some ws => simp [eq_comm (b := s)]

/-- Settles O50: the words of the list are the patterns of its integers, as many as there are integers. -/
theorem initAcceptsExactlyTheImages : Obligations.InitAcceptsExactlyTheImages := by
  intro image s
  rw [init_eq_some_iff]
  constructor
  · rintro ⟨ws, hws, hlen, rfl⟩
    obtain ⟨hrange, rfl⟩ := (imageWords_eq_some_iff image ws).mp hws
    exact ⟨by simpa using hlen, hrange, rfl⟩
  · rintro ⟨hlen, hrange, rfl⟩
    exact ⟨_, (imageWords_eq_some_iff image _).mpr ⟨hrange, rfl⟩, by simpa using hlen, rfl⟩

/-! ### The ports -/

/-- R101: a running machine stops in exactly the steps whose halt check succeeds. -/
theorem step_stops_iff {s : State} (hr : s.status = .running) :
    (∃ t, step s = .next t ∧ t.status = .halted) ↔ haltCheck s = true := by
  refine ⟨fun ⟨t, h, ht⟩ => ?_, fun hh => ⟨_, step_of_haltCheck hr hh, s.stop_status⟩⟩
  rcases step_cases h with ⟨hs, -⟩ | ⟨-, hh, -⟩ | ⟨-, rfl⟩
  · simp [hr] at hs
  · exact hh
  · simp [hr] at ht

theorem ports_faulted_iff (s : State) :
    s.ports.faulted = true ↔ haltCheck s = false ∧ ∃ f, faultOf s = some f := by
  simp [State.ports, Option.isSome_iff_exists, and_comm]

theorem ports_dmemWe_of_performs {s : State} (hp : s.performsCycle) :
    s.ports.dmemWe = true ↔ op s.exmem.instr = .sw := by
  simp [State.ports, hp.2.2]

/-- Settles O52: the halt check, the fault check and the store of the word in MEM are what the ports carry. -/
theorem portsAnnounceTheStep : Obligations.PortsAnnounceTheStep := by
  refine fun s hr => ⟨(step_stops_iff hr).symm, ?_, fun t hp h => ?_⟩
  · simp only [ports_faulted_iff, step_eq_fault_iff hr, exists_and_left]
  · simp only [eq_cycle_of_performs hp h, cycle_dataMem, storeEffect_eq, ports_dmemWe_of_performs hp]
    rfl

/-! ### The sequential machine -/

/-- Settles O41: the machine runs the word it fetches, which decodes to the instruction. -/
theorem sequentialStepRunsTheDecodedInstruction : Obligations.SequentialStepRunsTheDecodedInstruction :=
  fun s _ hr hpc hdec =>
    (seqStep_of_inRange hr ((legalAddress_iff_inRange _).mp hpc)).trans (execWord_of_decode hdec s)

theorem seqRun_succ_of_step {v v' : State} (h : seqStep v = .next v') (n : Nat) : seqRun (n + 1) v = seqRun n v' := by
  rw [seqRun, h]

theorem seqStep_of_halted {v : State} (h : v.status = .halted) : seqStep v = .next v := by
  simp [seqStep, h]

theorem seqRun_of_halted {v : State} (h : v.status = .halted) (n : Nat) : seqRun n v = .next v := by
  induction n with
  | zero => rfl
  | succ n ih => exact (seqRun_succ_of_step (seqStep_of_halted h) n).trans ih

theorem exists_step_of_seqRun_succ {n : Nat} {v w : State} (h : seqRun (n + 1) v = .next w) :
    ∃ v', seqStep v = .next v' ∧ seqRun n v' = .next w := by
  rw [seqRun] at h
  cases hs : seqStep v with
  | next v' => exact ⟨v', rfl, by simpa [hs] using h⟩
  | fault f => simp [hs] at h
  | refused r => simp [hs] at h

theorem takenBranches_succ_of_step {v v' : State} (h : seqStep v = .next v') (n : Nat) :
    takenBranches (n + 1) v = v.seqTakes.toNat + takenBranches n v' := by
  rw [takenBranches, h]
  cases v.seqTakes <;> rfl

/-- The side conditions of R217 for a run that starts in `v`; `SequentialHalt` has them for a loaded image. -/
structure HaltsAfter (n : Nat) (v w : State) : Prop where
  arrives : seqRun n v = .next w
  running : w.status = .running
  atHalt : op (w.fetch w.pc) = .halt
  indices : ∀ k ≤ n, ∀ u, seqRun k v = .next u → u.pc.toNat ≤ 65531
  harmless : harmlessInMem (w.fetch (nextIndex w.pc)) = true

theorem SequentialHalt.haltsAfter {image : List Word} {n : Nat} {w : State} (h : SequentialHalt image n w) :
    HaltsAfter n (State.load image) w :=
  ⟨h.arrives, h.running, h.atHalt, h.indices, h.harmless⟩

section
variable {n : Nat} {v w : State}

theorem HaltsAfter.pc_le (h : HaltsAfter n v w) : v.pc.toNat ≤ 65531 := h.indices 0 (Nat.zero_le n) v rfl

/-- A run with steps left is not at a HALT yet, where the sequential machine would stop, and its next state goes on. -/
theorem HaltsAfter.exists_step (h : HaltsAfter (n + 1) v w) (hr : v.status = .running) :
    ∃ v', seqStep v = .next v' ∧ op (v.fetch v.pc) ≠ .halt ∧ HaltsAfter n v' w := by
  obtain ⟨v', hstep, hrest⟩ := exists_step_of_seqRun_succ h.arrives
  refine ⟨v', hstep, fun hhalt => ?_, hrest, h.running, h.atHalt, fun k hk u hu => ?_, h.harmless⟩
  · have hpc : inRange v.pc = true := (inRange_iff _).mpr (h.pc_le.trans_lt (by decide))
    obtain rfl := eq_stop_of_seqStep_halt hr hpc hhalt hstep
    obtain rfl : v.stop = w := Host.Outcome.next.inj ((seqRun_of_halted v.stop_status n).symm.trans hrest)
    simpa using h.running
  · exact h.indices (k + 1) (by omega) u ((seqRun_succ_of_step hstep k).trans hu)

end

/-! ### Counting the cycles of a run (R221) -/

/-- The clocked run from `s` ends normally with the registers and data memory of `w`, after `c` cycles and as many more as
stalls take effect. -/
def State.endsLike (s w : State) (c : Nat) : Prop :=
  ∃ k t, runCycles k s = .next t ∧ t.endedNormally ∧ t.reg = w.reg ∧ t.dataMem = w.dataMem ∧
    t.cycles = s.cycles + c + stallCycles k s

/-- R101: the stop is no cycle. -/
theorem endsLike_of_haltCheck {s w : State} (hr : s.status = .running) (hh : haltCheck s = true) (hreg : s.reg = w.reg)
    (hdmem : s.dataMem = w.dataMem) : s.endsLike w 0 := by
  have hstall : stallCycles 1 s = 0 := by simp [stallCycles, State.stallTakesEffect, hh, step_of_haltCheck hr hh]
  exact ⟨1, s.stop, runCycles_succ_of_haltCheck hr hh 0, rfl, hreg, hdmem, by simp [hstall]⟩

/-- A performed cycle is one of the `c` unless it is a stall that takes effect. -/
theorem endsLike_of_cycle {s w : State} {c c' : Nat} (hp : s.performsCycle) (h : (cycle s).endsLike w c')
    (hc : c + s.stallTakesEffect.toNat = c' + 1) : s.endsLike w c := by
  obtain ⟨k, t, hrun, hend, hreg, hdmem, hcycles⟩ := h
  refine ⟨k + 1, t, (runCycles_succ_of_performs hp k).trans hrun, hend, hreg, hdmem, ?_⟩
  have hstall : stallCycles (k + 1) s = s.stallTakesEffect.toNat + stallCycles k (cycle s) := by
    rw [stallCycles, step_of_performs hp]
    cases s.stallTakesEffect <;> rfl
  rw [hcycles, hstall, cycle_cycles]
  omega

/-! ### The clocked run along the sequential run (R217) -/

/-- How many of EX/MEM, ID/EX and IF/ID hold a bubble. -/
def bubbles (e d f : Bool) : Nat := (!e).toNat + (!d).toNat + (!f).toNat

section
variable {n c : Nat} {e d f : Bool} {s v w : State}

/-- R107: a stall has a real load in ID/EX and so a real word in IF/ID. -/
theorem ifid_real_of_stall (h : Sim e d f s v) (hs : stall s = true) : f = true := by
  cases d with
  | true => exact h.realBehindIdex rfl
  | false => simp [stall_of_bubble (by simpa using h.idex : s.idex.instr = noopWord)] at hs

/-- A cycle without a taken branch drops the bubble of EX/MEM, if there is one, and a stall inserts one. -/
theorem bubbles_moved (h : Sim e d f s v) :
    bubbles d (f && !stall s) true + (!e).toNat = bubbles e d f + (stall s).toNat := by
  unfold bubbles
  cases hs : stall s with
  | false =>
    simp only [Bool.not_false, Bool.and_true, Bool.not_true, Bool.toNat_false]
    omega
  | true =>
    simp only [ifid_real_of_stall h hs, Bool.not_true, Bool.and_false, Bool.not_false, Bool.toNat_false, Bool.toNat_true]
    omega

/-- Ahead of the HALT a stall takes effect exactly when no taken branch overrides it (log entry 20). -/
theorem stallTakesEffect_of_sim (h : Sim e d f s v) (hp : s.performsCycle) (hnh : op s.exmem.instr ≠ .halt) :
    s.stallTakesEffect = (stall s && !takenBranch s) := by
  obtain ⟨hr, hh, hf⟩ := hp
  simp [State.stallTakesEffect, hr, hh, hf, bne_iff_ne.mpr hnh, bne_iff_ne.mpr h.memwb]

/-- A bubble in EX/MEM costs its one cycle. -/
theorem endsLike_of_bubble (h : Sim false d f s v) (hpc : inRange s.pc = true)
    (hnext : Sim d (f && !stall s) true (cycle s) v →
      (cycle s).endsLike w (c + bubbles d (f && !stall s) true)) : s.endsLike w (c + bubbles false d f) := by
  obtain ⟨hp, hsim⟩ := sim_bubble h hpc
  have hbubble : s.exmem.instr = noopWord := by simpa using h.exmem
  refine endsLike_of_cycle hp (hnext hsim) ?_
  have hnt : takenBranch s = false := by simp [takenBranch, hbubble]
  have hmoved := bubbles_moved h
  rw [stallTakesEffect_of_sim h hp (by simp [hbubble]), hnt]
  simp only [Bool.not_false, Bool.and_true, Bool.toNat_true] at hmoved ⊢
  omega

/-- It is enough to count from where the word at `v.pc` is in EX/MEM: at most three bubbles are ahead of it. -/
theorem endsLike_of_sim_of_mem (hidx : v.pc.toNat ≤ 65531)
    (hmem : ∀ {d f : Bool} {s : State}, Sim true d f s v → s.endsLike w (c + bubbles true d f))
    (h : Sim e d f s v) : s.endsLike w (c + bubbles e d f) := by
  have hin {e d f : Bool} {u : State} (hu : Sim e d f u v) : inRange u.pc = true := sim_pc_inRange hu (by omega)
  have hex {f : Bool} {s : State} (h : Sim false true f s v) : s.endsLike w (c + bubbles false true f) :=
    endsLike_of_bubble h (hin h) hmem
  have hid {s : State} (h : Sim false false true s v) : s.endsLike w (c + bubbles false false true) := by
    refine endsLike_of_bubble h (hin h) ?_
    rw [stall_of_bubble (by simpa using h.idex)]
    exact hex
  cases e with
  | true => exact hmem h
  | false =>
    cases d with
    | true => exact hex h
    | false =>
      cases f with
      | true => exact hid h
      | false => exact endsLike_of_bubble h (hin h) hid

/-- R212, R220: from MEM a HALT takes two cycles to the halt check, in which no stall takes effect. -/
theorem endsLike_of_halt (h : Sim true d f s v) (hhalt : HaltsAfter 0 v w) : s.endsLike w (2 + bubbles true d f) := by
  obtain rfl : v = w := Host.Outcome.next.inj hhalt.arrives
  have hop : op s.exmem.instr = .halt := (congrArg op (exmem_instr_of_sim h)).trans hhalt.atHalt
  obtain rfl : d = true := h.bubbleBehindLoad rfl (by simp [hop])
  obtain rfl : f = true := h.realBehindExmem rfl
  obtain ⟨hp, hp', hh, hreg, hdmem⟩ := sim_halt h hhalt.atHalt hhalt.harmless hhalt.pc_le
  have hstop : (cycle (cycle s)).endsLike v 0 := endsLike_of_haltCheck hp'.1 hh hreg hdmem
  have hone : (cycle s).endsLike v 1 :=
    endsLike_of_cycle hp' hstop (by simp [State.stallTakesEffect, memoryStage, hop])
  exact endsLike_of_cycle hp hone (by simp [State.stallTakesEffect, hop, bubbles])

/-- No bubble stands behind a taken branch in MEM, so the squash (R117) costs three cycles. -/
theorem bubbles_of_taken (h : Sim true d f s v) (ht : takenBranch s = true) : bubbles true d f = 0 := by
  have hop := ((takenBranch_iff s).mp ht).1
  rw [h.bubbleBehindLoad rfl (by simp [hop]), h.realBehindExmem rfl]
  rfl

/-- R217, R221: the clocked run ends as the sequential machine does. It takes one cycle for each of the `n` words ahead of the
HALT, one for each bubble, three for each taken branch, and two for the HALT on its way to WB/END. -/
theorem endsLike_of_sim (hhalt : HaltsAfter n v w) (h : Sim e d f s v) :
    s.endsLike w (n + 3 * takenBranches n v + 2 + bubbles e d f) := by
  induction n generalizing e d f s v with
  | zero =>
    refine endsLike_of_sim_of_mem hhalt.pc_le (fun hs => ?_) h
    simpa [takenBranches] using endsLike_of_halt hs hhalt
  | succ n ih =>
    refine endsLike_of_sim_of_mem hhalt.pc_le (fun {d f s} hs => ?_) h
    obtain ⟨v', hstep, hne, hrest⟩ := hhalt.exists_step hs.seqRunning
    have hidx := hhalt.pc_le
    obtain ⟨hp, hsim⟩ := sim_advance hs (sim_pc_inRange hs (by omega)) hne hstep
    have heffect := stallTakesEffect_of_sim hs hp (by rwa [exmem_instr_of_sim hs])
    rw [takenBranches_succ_of_step hstep, ← sim_takenBranch hs]
    cases ht : takenBranch s with
    | true =>
      rw [if_pos ht] at hsim
      refine endsLike_of_cycle hp (ih hrest hsim) ?_
      rw [bubbles_of_taken hs ht, heffect, ht]
      simp only [bubbles, Bool.not_true, Bool.not_false, Bool.and_false, Bool.toNat_true, Bool.toNat_false]
      omega
    | false =>
      rw [if_neg (by simp [ht])] at hsim
      refine endsLike_of_cycle hp (ih hrest hsim) ?_
      have hmoved := bubbles_moved hs
      rw [heffect, ht]
      simp only [Bool.not_true, Bool.not_false, Bool.and_true, Bool.toNat_false] at hmoved ⊢
      omega

end

/-- The run from a loaded image, whose pipeline holds three bubbles. -/
theorem endsLike_of_sequentialHalt {image : List Word} {n : Nat} {v : State} (h : SequentialHalt image n v) :
    (State.load image).endsLike v (n + 3 * takenBranches n (State.load image) + 5) :=
  endsLike_of_sim h.haltsAfter (sim_load image)

/-- Settles O46: the clocked run ends like the sequential one. -/
theorem pipelineRefinesTheSequentialMachine : Obligations.PipelineRefinesTheSequentialMachine := by
  intro image n v h
  obtain ⟨k, t, hrun, hend, hreg, hdmem, -⟩ := endsLike_of_sequentialHalt h
  exact ⟨k, t, hrun, hend, hreg, hdmem⟩

/-- Settles O47: the count of the run that ends like the sequential one, from a counter at 0. -/
theorem cycleCountIsInstructionsStallsAndBranches : Obligations.CycleCountIsInstructionsStallsAndBranches := by
  intro image n v h
  obtain ⟨k, t, hrun, hend, -, -, hcycles⟩ := endsLike_of_sequentialHalt h
  refine ⟨k, t, hrun, hend, ?_⟩
  have hzero : (State.load image).cycles = 0 := rfl
  omega

end Sys2Proof.Machine
